-- ==== Sys2Proof/Word.lean ====
section
/-! DEFINITION. The word and byte types of the CORE (spec/00_scope.md R9, R10). -/

namespace Sys2Proof

/-- A word: "a 16-bit unsigned integer, the VM's fundamental storage unit" (R14). -/
abbrev Word := BitVec 16

/-- A byte: one half of an image word (R53), or a character code (R9, CHAR_BITS = 8). -/
abbrev Byte := BitVec 8

/-- A word address of Memory, 0..32767 (R51, R52). No other address can be written as this type. -/
abbrev Addr := Fin 32768

/-- The index of a general register, 0..7 (R21). -/
abbrev RegIndex := Fin 8

end Sys2Proof
end

