-- ==== Sys2Proof/Syntax.lean ====
section
/-! DEFINITION. The instructions: one constructor per row of spec/opcode_table.json (spec/30_encoding.md R92). -/

namespace Sys2Proof

/-- An operand word, read by its range (R84): a literal 0..32767, a register reference 32768..32775, or an
invalid word 32776..65535, which keeps its raw value because a fault reports it (R204). -/
inductive Operand where
  | literal (v : BitVec 15)
  | register (i : RegIndex)
  | invalid (w : Word)
  deriving DecidableEq, Repr

/-- The three kinds of operand position (R85): V, R and M. -/
inductive OperandKind where
  /-- V, read for its value (R86). -/
  | value
  /-- R, the destination register (R87). -/
  | destination
  /-- M, a value that must be a Memory address (R88). -/
  | address
  deriving DecidableEq, Repr

/-- The 22 instructions, in the order of their opcode words 0..21 (R92). Every operand may be of any class: what
an operand of the wrong class does is the instruction's own fault, part of its meaning (R94). -/
inductive Instr where
  | halt
  | set (a b : Operand)
  | push (a : Operand)
  | pop (a : Operand)
  | eq (a b c : Operand)
  | gt (a b c : Operand)
  | jmp (a : Operand)
  | jt (a b : Operand)
  | jf (a b : Operand)
  | add (a b c : Operand)
  | mult (a b c : Operand)
  | mod (a b c : Operand)
  | and (a b c : Operand)
  | or (a b c : Operand)
  | not (a b : Operand)
  | rmem (a b : Operand)
  | wmem (a b : Operand)
  | call (a : Operand)
  | ret
  | out (a : Operand)
  /-- The instruction `in` of the spec; the bare word is reserved in Lean. -/
  | inChar (a : Operand)
  | noop
  deriving DecidableEq, Repr

/-- The operands of an instruction in the order a, b, c (R80). -/
def Instr.operands : Instr → List Operand
  | .halt => []
  | .set a b => [a, b]
  | .push a => [a]
  | .pop a => [a]
  | .eq a b c => [a, b, c]
  | .gt a b c => [a, b, c]
  | .jmp a => [a]
  | .jt a b => [a, b]
  | .jf a b => [a, b]
  | .add a b c => [a, b, c]
  | .mult a b c => [a, b, c]
  | .mod a b c => [a, b, c]
  | .and a b c => [a, b, c]
  | .or a b c => [a, b, c]
  | .not a b => [a, b]
  | .rmem a b => [a, b]
  | .wmem a b => [a, b]
  | .call a => [a]
  | .ret => []
  | .out a => [a]
  | .inChar a => [a]
  | .noop => []

end Sys2Proof
end

