-- ==== Sys2Proof/WellFormed.lean ====
section
/-! DEFINITION. Which syntax is the reading of some words. -/

namespace Sys2Proof

/-- An operand is the reading of an operand word when an invalid one holds an invalid word, 32776..65535 (R84);
a literal and a register are always the reading of one. -/
def Operand.wf : Operand → Bool
  | .literal _ => true
  | .register _ => true
  | .invalid w => decide (32776 ≤ w.toNat)

/-- An instruction is well-formed when each of its operands is. -/
def Instr.wf (i : Instr) : Bool :=
  i.operands.all Operand.wf

end Sys2Proof
end

