-- ==== Sys2Proof/Decode.lean ====
section
/-! DEFINITION. Byte order, the decoder and the encoder (spec/20_memory.md R53, spec/30_encoding.md R80-R95). -/

namespace Sys2Proof

/-! ### Byte order of the image (R53) -/

/-- The word of a byte pair: the byte at the even offset is bits 7:0, the byte at the odd offset bits 15:8 (R53). -/
def wordOfBytes (lo hi : Byte) : Word := hi ++ lo

/-- Bits 7:0 of a word. -/
def lowByte (w : Word) : Byte := w.extractLsb' 0 8

/-- Bits 15:8 of a word. -/
def highByte (w : Word) : Byte := w.extractLsb' 8 8

/-- The words of a byte sequence, pair by pair; a last byte without a partner makes no word. -/
def wordsOfBytes : List Byte → List Word
  | lo :: hi :: rest => wordOfBytes lo hi :: wordsOfBytes rest
  | _ => []

/-- The bytes of a word sequence, each word's low byte first. -/
def bytesOfWords : List Word → List Byte
  | [] => []
  | w :: rest => lowByte w :: highByte w :: bytesOfWords rest

/-! ### Operand words (R84) -/

/-- The class of an operand word, by its range (R84). -/
def Operand.ofWord (w : Word) : Operand :=
  if w.toNat < 32768 then .literal (w.setWidth 15)
  else if h : w.toNat < 32776 then .register ⟨w.toNat - 32768, by omega⟩
  else .invalid w

/-- The word an operand is assembled to (R97): the literal's value, or 32768 + i for register i. -/
def Operand.toWord : Operand → Word
  | .literal v => v.setWidth 16
  | .register i => BitVec.ofNat 16 (32768 + i.val)
  | .invalid w => w

/-! ### The opcode map (R81, R85, R92) -/

/-- The opcode word of an instruction (R92). -/
def Instr.opcode : Instr → Word
  | .halt => 0
  | .set _ _ => 1
  | .push _ => 2
  | .pop _ => 3
  | .eq _ _ _ => 4
  | .gt _ _ _ => 5
  | .jmp _ => 6
  | .jt _ _ => 7
  | .jf _ _ => 8
  | .add _ _ _ => 9
  | .mult _ _ _ => 10
  | .mod _ _ _ => 11
  | .and _ _ _ => 12
  | .or _ _ _ => 13
  | .not _ _ => 14
  | .rmem _ _ => 15
  | .wmem _ _ => 16
  | .call _ => 17
  | .ret => 18
  | .out _ => 19
  | .inChar _ => 20
  | .noop => 21

/-- The kinds of the operands of each opcode word, in the order a, b, c (R85). An illegal opcode word has no
operand count (R93). -/
def operandKinds (op : Word) : List OperandKind :=
  match op.toNat with
  | 1 => [.destination, .value]
  | 2 => [.value]
  | 3 => [.destination]
  | 4 => [.destination, .value, .value]
  | 5 => [.destination, .value, .value]
  | 6 => [.value]
  | 7 => [.value, .value]
  | 8 => [.value, .value]
  | 9 => [.destination, .value, .value]
  | 10 => [.destination, .value, .value]
  | 11 => [.destination, .value, .value]
  | 12 => [.destination, .value, .value]
  | 13 => [.destination, .value, .value]
  | 14 => [.destination, .value]
  | 15 => [.destination, .address]
  | 16 => [.address, .value]
  | 17 => [.value]
  | 19 => [.value]
  | 20 => [.destination]
  | _ => []

/-- The length of an instruction in words, 1 plus its operand count (R91). -/
def Instr.length (i : Instr) : Nat :=
  1 + i.operands.length

/-! ### Decoding -/

/-- Why a word sequence is not an instruction. -/
inductive Reject where
  /-- The opcode word is 22..65535 (R93). -/
  | illegalInstruction (op : Word)
  /-- The words end before the instruction does. -/
  | truncated
  deriving DecidableEq, Repr

/-- A decoded instruction and the words after it, or a rejection by name. -/
abbrev Decoded := Except Reject (Instr × List Word)

/-- Format F1: one operand word (R81). -/
def decodeF1 (mk : Operand → Instr) : List Word → Decoded
  | a :: rest => .ok (mk (.ofWord a), rest)
  | _ => .error .truncated

/-- Format F2: two operand words (R81). -/
def decodeF2 (mk : Operand → Operand → Instr) : List Word → Decoded
  | a :: b :: rest => .ok (mk (.ofWord a) (.ofWord b), rest)
  | _ => .error .truncated

/-- Format F3: three operand words (R81). -/
def decodeF3 (mk : Operand → Operand → Operand → Instr) : List Word → Decoded
  | a :: b :: c :: rest => .ok (mk (.ofWord a) (.ofWord b) (.ofWord c), rest)
  | _ => .error .truncated

/-- Decode by the opcode word (R82, R92); every other opcode word is illegal, whatever follows it (R93). -/
def decodeAs (op : Word) (rest : List Word) : Decoded :=
  match op.toNat with
  | 0 => .ok (.halt, rest)
  | 1 => decodeF2 .set rest
  | 2 => decodeF1 .push rest
  | 3 => decodeF1 .pop rest
  | 4 => decodeF3 .eq rest
  | 5 => decodeF3 .gt rest
  | 6 => decodeF1 .jmp rest
  | 7 => decodeF2 .jt rest
  | 8 => decodeF2 .jf rest
  | 9 => decodeF3 .add rest
  | 10 => decodeF3 .mult rest
  | 11 => decodeF3 .mod rest
  | 12 => decodeF3 .and rest
  | 13 => decodeF3 .or rest
  | 14 => decodeF2 .not rest
  | 15 => decodeF2 .rmem rest
  | 16 => decodeF2 .wmem rest
  | 17 => decodeF1 .call rest
  | 18 => .ok (.ret, rest)
  | 19 => decodeF1 .out rest
  | 20 => decodeF1 .inChar rest
  | 21 => .ok (.noop, rest)
  | _ => .error (.illegalInstruction op)

/-- The decoder, total on any word sequence. -/
def decode : List Word → Decoded
  | [] => .error .truncated
  | op :: rest => decodeAs op rest

/-- The decoder on bytes as the image holds them (R53). -/
def decodeBytes (bytes : List Byte) : Decoded :=
  decode (wordsOfBytes bytes)

/-! ### Encoding -/

/-- The words of an instruction: its opcode word, then its operand words (R80, R97). -/
def encode (i : Instr) : List Word :=
  i.opcode :: i.operands.map Operand.toWord

/-! ### One row of the opcode table -/

/-- The bytes, lowest address first, of an instruction whose bits are w: bits at nbits and above are 0, and the
longest instruction has 8 bytes (R80). -/
def tableBytes (nbits w : Nat) : List Byte :=
  (List.range 8).map fun k => BitVec.ofNat 8 ((w % 2 ^ nbits) >>> (8 * k))

/-- The instruction the decoder reads from an instruction whose bits are w, none where it refuses. -/
def decodeTableWord (nbits w : Nat) : Option Instr :=
  match decodeBytes (tableBytes nbits w) with
  | .ok (i, _) => some i
  | .error _ => none

end Sys2Proof
end

