-- ==== Sys2Proof/Config.lean ====
section
/-! DEFINITION. What a build of the CORE fixes (spec/00_scope.md R9, R15). The spec leaves no value free, so there is
no opaque constant here. -/

namespace Sys2Proof

/-- The configuration of one build. -/
structure Config where
  /-- STACK_DEPTH_MAX (R9, R31, decision D1): `none` is the source's unbounded stack, `some n` a build that bounds
  its stack to n words. -/
  stackDepthMax : Option Nat
  deriving DecidableEq, Repr

/-- The source's configuration: STACK_DEPTH_MAX = infinity, "a model that follows the source takes that value"
(R31). -/
def Config.source : Config := ⟨none⟩

/-- A finite STACK_DEPTH_MAX is at least 1 (R31). -/
def Config.wf (c : Config) : Bool :=
  match c.stackDepthMax with
  | none => true
  | some n => decide (1 ≤ n)

end Sys2Proof
end

