-- ==== Sys2Proof/Machine/State.lean ====
section
/-! DEFINITION. The state of the CORE as plain data (spec/10_state.md R20-R40), and the state after reset. -/

namespace Sys2Proof.Machine

/-- The fault kinds of the source's closed taxonomy, and StackOverflow for a build that bounds its stack
(spec/60_exceptions.md R200). A fault of the spec is not an outcome that stops the model: it is taken, and the
Faulted state it leads to is a next state (R205; DEDUCED, log 1, safe). -/
inductive FaultKind where
  | invalidOperand
  | invalidDestination
  | invalidMemoryAddress
  | invalidJumpTarget
  | illegalInstruction
  | addressOutOfRange
  | stackUnderflow
  | divideByZero
  | inputExhausted
  | stackOverflow
  deriving DecidableEq, Repr

/-- "`Running`, `Halted`, `Faulted(reason)`" (R34). -/
inductive RunStatus where
  | running
  | halted
  | faulted (kind : FaultKind)
  deriving DecidableEq, Repr

/-- The host's answer to an input request (spec/46_io.md R193). -/
inductive InputReply where
  | char (c : Byte)
  | endOfInput
  deriving DecidableEq, Repr

/-- Memory as a list of bytes by image offset: word k of Memory is the bytes 2k (bits 7:0) and 2k+1 (bits 15:8), as
the image lays them out (R53; DESIGN CHOICE, log 5, safe). Canonical form: see `Memory.wf`. -/
abbrev Memory := List Host.Cell

/-- What a byte that is not listed reads as: Memory is "zero-padded beyond image length" (R37, R40). -/
def Memory.unlisted : Byte := 0

/-- The canonical form: addresses strictly rising, all of them inside the 65536 bytes of Memory (R50), and no entry
equal to what an unlisted address reads as. -/
abbrev Memory.wf (m : Memory) : Prop :=
  m.Pairwise (fun c d => c.1 < d.1) ∧ ∀ c ∈ m, c.1 < 65536 ∧ c.2 ≠ Memory.unlisted

/-- Everything the spec gives the machine (R20, R35, R36, R39), the configuration it runs under (R15) and the host's
answers that the input oracle has ready (R15, R193). -/
structure State where
  /-- Memory (R37). -/
  mem : Memory
  /-- r0..r7 (R21). -/
  regs : Vector Word 8
  /-- The program counter (R25). -/
  pc : Word
  /-- The stack, bottom first: `[s0, .., s(d-1)]` with `s(d-1)` the top (R29). -/
  stack : List Word
  /-- RUN, and while Faulted the kind FKIND reports (R34, R35). -/
  run : RunStatus
  /-- FAULT_PC (R35). -/
  faultPc : Word
  /-- FAULT_INFO (R35). -/
  faultInfo : Word
  /-- WAIT_IN: an `in` has asked for a character and waits (R36, R121). -/
  waitIn : Bool
  /-- The output trace, oldest code first (R39; DEDUCED, log 4, safe). -/
  output : List Byte
  /-- The model's own: the answers the host has ready, oldest first; empty means none yet (DESIGN CHOICE, log 3,
  unsafe only for a claim that rests on it being empty). -/
  input : List InputReply
  /-- The build's parameters (R9); no step changes them (DESIGN CHOICE, log 2, safe but for its value at reset). -/
  config : Config
  deriving DecidableEq, Repr

/-- The reasons a step could end in the outcome `fault`. There is none: every fault of the spec is taken, and the
Faulted state is a next state with its fault record (R205). -/
inductive Fault where
  deriving DecidableEq, Repr

/-- The reasons a request is refused. -/
inductive Refusal where
  /-- An arm of exec whose instruction has no meaning yet. No arm raises it. Safe: the model stops. -/
  | notModelled (mnemonic : String)
  /-- Raised by the host transaction INPUT_REPLY when no `in` waits for an answer: the spec has the host answer a
  request and gives no effect to an answer without one (R193, R222; DESIGN CHOICE, log 10). No instruction raises it.
  Safe: the model stops. -/
  | noInputRequest
  deriving DecidableEq, Repr

/-- What a step answers. -/
abbrev Outcome := Host.Outcome State Fault Refusal

/-- The machine right after reset (R40, R240), with the empty image (DESIGN CHOICE, log 6, unsafe for claims about the
run from it), no answer ready (DESIGN CHOICE, log 3, unsafe likewise) and the source's unbounded stack (DESIGN CHOICE,
log 2, unsafe for a bounded build). -/
def State.reset : State where
  mem := []
  regs := Vector.replicate 8 0
  pc := 0
  stack := []
  run := .running
  faultPc := 0
  faultInfo := 0
  waitIn := false
  output := []
  input := []
  config := Config.source

end Sys2Proof.Machine
end

