-- ==== Sys2Proof/Machine/Ops.lean ====
section
/-! DEFINITION. The named operations over Memory, registers, stack, console and PC (spec/00_scope.md R11), and taking
a fault (spec/60_exceptions.md R205). -/

namespace Sys2Proof.Machine

/-! ### Memory, byte by byte -/

/-- The byte at an image offset; an unlisted one reads as `Memory.unlisted` (R40). -/
def Memory.readByte : Memory → Nat → Byte
  | [], _ => Memory.unlisted
  | (k, w) :: rest, n => if n = k then w else Memory.readByte rest n

/-- Puts a byte in front, unless it is what an unlisted address reads as. -/
def Memory.putByte (n : Nat) (v : Byte) (rest : Memory) : Memory :=
  if v = Memory.unlisted then rest else (n, v) :: rest

/-- Writes a byte and keeps the canonical form. -/
def Memory.writeByte : Memory → Nat → Byte → Memory
  | [], n, v => Memory.putByte n v []
  | (k, w) :: rest, n, v =>
    if n < k then Memory.putByte n v ((k, w) :: rest)
    else if n = k then Memory.putByte n v rest
    else (k, w) :: Memory.writeByte rest n v

/-! ### Memory, word by word (R11 MemRead and MemWrite, R51) -/

/-- `MemRead(a, 1)` (R11): the word at an address. -/
def Memory.readWord (m : Memory) (a : Addr) : Word :=
  wordOfBytes (m.readByte (2 * a.val)) (m.readByte (2 * a.val + 1))

/-- `MemWrite(a, 1, v)` (R11): the whole word at an address. -/
def Memory.writeWord (m : Memory) (a : Addr) (v : Word) : Memory :=
  (m.writeByte (2 * a.val) (lowByte v)).writeByte (2 * a.val + 1) (highByte v)

/-- The check before every access to Memory (R52): only 0..32767 is an address. -/
def addressOf (n : Nat) : Option Addr :=
  if h : n < 32768 then some ⟨n, h⟩ else none

/-- Stores words at n, n+1, ..; one that would lie beyond address 32767 is left out. -/
def Memory.storeWords (m : Memory) (n : Nat) : List Word → Memory
  | [] => m
  | w :: rest =>
    match addressOf n with
    | some a => (m.writeWord a w).storeWords (n + 1) rest
    | none => m

/-- The memory of an image whose first byte has offset n (R53, R241). -/
def Memory.ofImage (n : Nat) : List Byte → Memory
  | [] => []
  | b :: rest => Memory.putByte n b (Memory.ofImage (n + 1) rest)

/-! ### State updates -/

/-- `x[i]` (R11). -/
def State.readReg (s : State) (i : RegIndex) : Word := s.regs[i]

/-- `x[i] <- v` (R11); no register is hardwired (R22). -/
def State.writeReg (s : State) (i : RegIndex) (v : Word) : State :=
  { s with regs := s.regs.set i v }

/-- Writes a word of Memory; only wmem does (R37). -/
def State.storeWord (s : State) (a : Addr) (v : Word) : State :=
  { s with mem := s.mem.writeWord a v }

/-- `Push(v)`: appends v at the top of the stack (R11, R29). -/
def State.appendTop (s : State) (v : Word) : State :=
  { s with stack := s.stack ++ [v] }

/-- Removes the top word of the stack (R11, R29). -/
def State.dropTop (s : State) : State :=
  { s with stack := s.stack.dropLast }

/-- `Emit(c)`: the output trace holds the codes in emission order (R192). -/
def State.emit (s : State) (c : Byte) : State :=
  { s with output := s.output ++ [c] }

/-- The host's oldest answer has been taken (R193). -/
def State.dropReply (s : State) : State :=
  { s with input := s.input.tail }

/-- An instruction completes and the PC becomes `next` (R26, R118). WAIT_IN is 0: no `in` has begun to wait at the
new PC (R36; DEDUCED, log 8, safe). -/
def State.complete (s : State) (next : Word) : State :=
  { s with pc := next, waitIn := false }

/-- The hold of an `in`: no state changes, and WAIT_IN is 1 (R121). -/
def State.hold (s : State) : State :=
  { s with waitIn := true }

/-- RUN becomes Halted and the PC stays (R130). -/
def State.halt (s : State) : State :=
  { s with run := .halted, waitIn := false }

/-! ### Faults (R205) -/

/-- What `raise Fault(kind, info)` passes (R11, R205). -/
structure Raise where
  kind : FaultKind
  info : Word
  deriving DecidableEq, Repr

/-- A computation that may raise. -/
abbrev Attempt (α : Type) := Except Raise α

/-- What a computation raises, none when it succeeds. -/
def raisedBy {α : Type} (r : Attempt α) : Option Raise :=
  match r with
  | .ok _ => none
  | .error e => some e

/-- Taking a fault (R205): RUN, FKIND, FAULT_PC and FAULT_INFO are written and nothing else changes. WAIT_IN is 1
only while Running (R36), so it is 0 (DEDUCED, log 8, safe). -/
def State.takeFault (s : State) (e : Raise) : State :=
  { s with run := .faulted e.kind, faultPc := s.pc, faultInfo := e.info, waitIn := false }

/-- The end of a step (R117): the effects of an instruction that completes are committed together, and an
instruction that raises leaves none of them, since the fault is taken from the state at the start of the step. -/
def commit (s : State) (r : Attempt State) : Outcome :=
  match r with
  | .ok t => .next t
  | .error e => .next (s.takeFault e)

/-! ### Operations that may raise -/

/-- Whether the stack is at STACK_DEPTH_MAX; never, when that is infinity (R31). A stack above the bound, which no run
reaches, counts as full (DESIGN CHOICE, log 14, safe). -/
def State.stackFull (s : State) : Bool :=
  match s.config.stackDepthMax with
  | none => false
  | some n => decide (n ≤ s.stack.length)

/-- Push with the check of a bounded build (R31, R141). -/
def State.push (s : State) (v : Word) : Attempt State :=
  if s.stackFull then .error ⟨.stackOverflow, 0⟩ else .ok (s.appendTop v)

/-- The top word, which pop and ret need to exist (R30, R142, R176). -/
def State.top (s : State) : Attempt Word :=
  match s.stack.getLast? with
  | none => .error ⟨.stackUnderflow, 0⟩
  | some v => .ok v

/-- `checktarget(t)`: a jump target must be a program address (R171). -/
def checkTarget (t : Word) : Attempt Word :=
  if t.toNat < 32768 then .ok t else .error ⟨.invalidJumpTarget, t⟩

/-- The fetch of one instruction word (R112, R113). -/
def State.fetchWord (s : State) (n : Nat) : Attempt Word :=
  match addressOf n with
  | some a => .ok (s.mem.readWord a)
  | none => .error ⟨.addressOutOfRange, BitVec.ofNat 16 n⟩

end Sys2Proof.Machine
end

