-- ==== Sys2Proof/Machine/Flags.lean ====
section
/-! DEFINITION. The CORE has no flags (spec/10_state.md R33). Here are the truth word a comparison writes and the
status registers the host reads (R36). -/

namespace Sys2Proof.Machine

/-- A comparison writes 1 or 0 (R33). -/
def truth (b : Bool) : Word := if b then 1 else 0

/-- The fault codes of FKIND (R201). -/
def FaultKind.code : FaultKind → BitVec 4
  | .invalidOperand => 1
  | .invalidDestination => 2
  | .invalidMemoryAddress => 3
  | .invalidJumpTarget => 4
  | .illegalInstruction => 5
  | .addressOutOfRange => 6
  | .stackUnderflow => 7
  | .divideByZero => 8
  | .inputExhausted => 9
  | .stackOverflow => 10

/-- RUN, STATUS bits 1:0 (R36); 3 is never produced. -/
def RunStatus.code : RunStatus → BitVec 2
  | .running => 0
  | .halted => 1
  | .faulted _ => 2

/-- FKIND, STATUS bits 7:4 (R36): 0 unless Faulted. -/
def RunStatus.faultCode : RunStatus → BitVec 4
  | .running => 0
  | .halted => 0
  | .faulted k => k.code

/-- WAIT_IN, STATUS bit 2 (R36): 1 only while Running. -/
def State.waiting (s : State) : Bool :=
  s.waitIn && decide (s.run = .running)

/-- STATUS (R36): 8 reserved bits, FKIND, a reserved bit, WAIT_IN, RUN. -/
def State.status (s : State) : Word :=
  0#8 ++ s.run.faultCode ++ 0#1 ++ BitVec.ofBool s.waiting ++ s.run.code

/-- What READ_STATUS gives the host: STATUS, FAULT_PC, FAULT_INFO; it has no effect (R222). -/
def State.readStatus (s : State) : Word × Word × Word :=
  (s.status, s.faultPc, s.faultInfo)

end Sys2Proof.Machine
end

