-- ==== Sys2Proof/Machine/Operands.lean ====
section
/-! DEFINITION. The operand resolver (spec/30_encoding.md R86-R90). -/

namespace Sys2Proof.Machine

/-- `value(w)` (R86): a literal as written, a register's content as it stands, or InvalidOperand. -/
def value (s : State) : Operand → Attempt Word
  | .literal v => .ok (v.setWidth 16)
  | .register i => .ok (s.readReg i)
  | .invalid w => .error ⟨.invalidOperand, w⟩

/-- `reg(w)` (R87): the register named, or InvalidDestination for any other word. -/
def destination : Operand → Attempt RegIndex
  | .register i => .ok i
  | .literal v => .error ⟨.invalidDestination, Operand.toWord (.literal v)⟩
  | .invalid w => .error ⟨.invalidDestination, w⟩

/-- The check of a resolved memory address (R88). -/
def checkAddress (v : Word) : Attempt Addr :=
  match addressOf v.toNat with
  | some a => .ok a
  | none => .error ⟨.invalidMemoryAddress, v⟩

/-- `maddr(w)` (R88): the value must itself be a Memory address. -/
def memAddress (s : State) (o : Operand) : Attempt Addr := do
  let v ← value s o
  checkAddress v

/-- The fault of resolving an operand by its kind, none when it resolves (R115). -/
def operandFault (s : State) (k : OperandKind) (o : Operand) : Option Raise :=
  match k with
  | .value => raisedBy (value s o)
  | .destination => raisedBy (destination o)
  | .address => raisedBy (memAddress s o)

/-- The first operand, in the order a, b, c, that does not resolve (R90, R206). -/
def firstOperandFault (s : State) : List OperandKind → List Operand → Option Raise
  | k :: ks, o :: os =>
    match operandFault s k o with
    | some e => some e
    | none => firstOperandFault s ks os
  | _, _ => none

end Sys2Proof.Machine
end

