-- ==== Sys2Proof/Machine/Alu.lean ====
section
/-! DEFINITION. eq, gt, add, mult, mod, and, or, not (spec/43_alu.md). -/

namespace Sys2Proof.Machine

/-! ### Results -/

/-- `v mod 32768` as a word (R10, R159). -/
def clamp15 (n : Nat) : Word := BitVec.ofNat 16 (n % 32768)

/-- Full 16-bit comparison, no clamp (R150). -/
def aluEq (x y : Word) : Word := truth (decide (x = y))

/-- Unsigned, strict (R151). -/
def aluGt (x y : Word) : Word := truth (decide (y.toNat < x.toNat))

/-- The exact sum, reduced (R152). -/
def aluAdd (x y : Word) : Word := clamp15 (x.toNat + y.toNat)

/-- The exact product, reduced (R153). -/
def aluMult (x y : Word) : Word := clamp15 (x.toNat * y.toNat)

/-- The unsigned remainder, clamped (R154, R159); a zero divisor raises. -/
def aluMod (x y : Word) : Attempt Word :=
  if y = 0 then .error ⟨.divideByZero, 0⟩ else .ok (clamp15 (x.toNat % y.toNat))

/-- 16-bit AND, clamped (R155, R159). -/
def aluAnd (x y : Word) : Word := clamp15 (x &&& y).toNat

/-- 16-bit OR, clamped (R156, R159). -/
def aluOr (x y : Word) : Word := clamp15 (x ||| y).toNat

/-- The 15-bit complement (R157). -/
def aluNot (x : Word) : Word := ~~~x &&& 0x7FFF

/-! ### The three-operand form -/

/-- Resolves a, b, c in this order, computes, writes the destination, and advances by 4 (R150-R156). -/
def threeOperand (f : Word → Word → Attempt Word) (a b c : Operand) (s : State) : Attempt State := do
  let i ← destination a
  let x ← value s b
  let y ← value s c
  let r ← f x y
  .ok ((s.writeReg i r).complete (s.pc + 4))

/-! ### Meanings -/

/-- `eq a b c` (R150). -/
def execEq (a b c : Operand) (s : State) : Outcome :=
  commit s (threeOperand (fun x y => .ok (aluEq x y)) a b c s)

/-- `gt a b c` (R151). -/
def execGt (a b c : Operand) (s : State) : Outcome :=
  commit s (threeOperand (fun x y => .ok (aluGt x y)) a b c s)

/-- `add a b c` (R152). -/
def execAdd (a b c : Operand) (s : State) : Outcome :=
  commit s (threeOperand (fun x y => .ok (aluAdd x y)) a b c s)

/-- `mult a b c` (R153). -/
def execMult (a b c : Operand) (s : State) : Outcome :=
  commit s (threeOperand (fun x y => .ok (aluMult x y)) a b c s)

/-- `mod a b c` (R154): DivideByZero after every operand has resolved. -/
def execMod (a b c : Operand) (s : State) : Outcome :=
  commit s (threeOperand aluMod a b c s)

/-- `and a b c` (R155). -/
def execAnd (a b c : Operand) (s : State) : Outcome :=
  commit s (threeOperand (fun x y => .ok (aluAnd x y)) a b c s)

/-- `or a b c` (R156). -/
def execOr (a b c : Operand) (s : State) : Outcome :=
  commit s (threeOperand (fun x y => .ok (aluOr x y)) a b c s)

/-- `not a b` (R157). -/
def execNot (a b : Operand) (s : State) : Outcome :=
  commit s do
    let i ← destination a
    let x ← value s b
    .ok ((s.writeReg i (aluNot x)).complete (s.pc + 3))

end Sys2Proof.Machine
end

