-- ==== Sys2Proof/Machine/Console.lean ====
section
/-! DEFINITION. out and in (spec/46_io.md). -/

namespace Sys2Proof.Machine

/-- `out a` (R190): bits 7:0 are emitted; the emit never blocks and never fails (R192). -/
def execOut (a : Operand) (s : State) : Outcome :=
  commit s do
    let v ← value s a
    .ok ((s.emit (lowByte v)).complete (s.pc + 2))

/-- `in a` (R191, R193): the destination is resolved before input is requested. Without an answer the instruction
holds (R121); a character completes it; end of input faults, and no answer is consumed (R117; DESIGN CHOICE, log 9,
safe). -/
def execIn (a : Operand) (s : State) : Outcome :=
  commit s do
    let i ← destination a
    match s.input.head? with
    | none => .ok s.hold
    | some .endOfInput => .error ⟨.inputExhausted, 0⟩
    | some (.char c) => .ok ((s.dropReply.writeReg i (c.setWidth 16)).complete (s.pc + 2))

end Sys2Proof.Machine
end

