-- ==== Sys2Proof/Machine/Control.lean ====
section
/-! DEFINITION. halt and noop (spec/41_machine_control.md). -/

namespace Sys2Proof.Machine

/-- `halt` (R130): RUN becomes Halted; the PC is not advanced. -/
def execHalt (s : State) : Outcome :=
  .next s.halt

/-- `noop` (R131): only the PC advances. -/
def execNoop (s : State) : Outcome :=
  .next (s.complete (s.pc + 1))

end Sys2Proof.Machine
end

