-- ==== Sys2Proof/Machine/ControlTransfer.lean ====
section
/-! DEFINITION. jmp, jt, jf, call and ret (spec/44_control_transfer.md). -/

namespace Sys2Proof.Machine

/-- `jmp a` (R172). -/
def execJmp (a : Operand) (s : State) : Outcome :=
  commit s do
    let t ← value s a
    let next ← checkTarget t
    .ok (s.complete next)

/-- Resolves the condition and the target in this order; the target is checked only when the jump is taken (R171,
R173, R174). -/
def conditionalJump (taken : Word → Bool) (a b : Operand) (s : State) : Attempt State := do
  let x ← value s a
  let t ← value s b
  if taken x then do
    let next ← checkTarget t
    .ok (s.complete next)
  else
    .ok (s.complete (s.pc + 3))

/-- `jt a b` (R173): taken when the value is not 0. -/
def execJt (a b : Operand) (s : State) : Outcome :=
  commit s (conditionalJump (fun x => decide (x ≠ 0)) a b s)

/-- `jf a b` (R174): taken when the value is 0. -/
def execJf (a b : Operand) (s : State) : Outcome :=
  commit s (conditionalJump (fun x => decide (x = 0)) a b s)

/-- `call a` (R175): the target is checked, then the depth, then the return address pc + 2 is pushed. -/
def execCall (a : Operand) (s : State) : Outcome :=
  commit s do
    let t ← value s a
    let next ← checkTarget t
    let u ← s.push (s.pc + 2)
    .ok (u.complete next)

/-- `ret` (R176): an empty stack, then the target, is checked before anything is popped. -/
def execRet (s : State) : Outcome :=
  commit s do
    let t ← s.top
    let next ← checkTarget t
    .ok (s.dropTop.complete next)

end Sys2Proof.Machine
end

