-- ==== Sys2Proof/Machine/MemoryAccess.lean ====
section
/-! DEFINITION. rmem and wmem (spec/45_memory_access.md). -/

namespace Sys2Proof.Machine

/-- `rmem a b` (R180): the whole word, unchanged. -/
def execRmem (a b : Operand) (s : State) : Outcome :=
  commit s do
    let i ← destination a
    let addr ← memAddress s b
    .ok ((s.writeReg i (s.mem.readWord addr)).complete (s.pc + 3))

/-- `wmem a b` (R181): the whole word; the only instruction that writes Memory. -/
def execWmem (a b : Operand) (s : State) : Outcome :=
  commit s do
    let addr ← memAddress s a
    let v ← value s b
    .ok ((s.storeWord addr v).complete (s.pc + 3))

end Sys2Proof.Machine
end

