-- ==== Sys2Proof/Machine/RegisterStack.lean ====
section
/-! DEFINITION. set, push and pop (spec/42_register_stack.md). -/

namespace Sys2Proof.Machine

/-- `set a b` (R140): reg[a] = value(b), unchanged. -/
def execSet (a b : Operand) (s : State) : Outcome :=
  commit s do
    let i ← destination a
    let v ← value s b
    .ok ((s.writeReg i v).complete (s.pc + 3))

/-- `push a` (R141): the value goes on top of the stack, unless a bounded build's stack is full. -/
def execPush (a : Operand) (s : State) : Outcome :=
  commit s do
    let v ← value s a
    let t ← s.push v
    .ok (t.complete (s.pc + 2))

/-- `pop a` (R142): the destination is resolved before the stack is looked at. -/
def execPop (a : Operand) (s : State) : Outcome :=
  commit s do
    let i ← destination a
    let v ← s.top
    .ok ((s.dropTop.writeReg i v).complete (s.pc + 2))

end Sys2Proof.Machine
end

