-- ==== Sys2Proof/Machine/Fetch.lean ====
section
/-! DEFINITION. Fetching an instruction's words, and the fault of a fetch that fails (spec/40_fetch_decode_execute.md
R112-R115). -/

namespace Sys2Proof.Machine

/-- The words at n, n+1, .. that exist in Memory, at most `count` of them. Reads have no side effects (R58), so
reading words that turn out not to be needed shows nowhere (DEDUCED, log 7, safe). -/
def Memory.window (m : Memory) (n : Nat) : Nat → List Word
  | 0 => []
  | count + 1 =>
    match addressOf n with
    | some a => m.readWord a :: Memory.window m (n + 1) count
    | none => []

/-- The words an instruction at the PC could have: up to 4 (R9, R80), fewer at the end of Memory. -/
def State.fetched (s : State) : List Word :=
  s.mem.window s.pc.toNat 4

/-- The fault of a step whose words end too early (R112, R113): an operand that was fetched and does not resolve
faults first (R115, R206), else the fetch of the next address is refused. -/
def truncatedFault (s : State) (words : List Word) : Raise :=
  let refused : Raise := ⟨.addressOutOfRange, BitVec.ofNat 16 (s.pc.toNat + words.length)⟩
  match words with
  | [] => refused
  | op :: rest => (firstOperandFault s (operandKinds op) (rest.map Operand.ofWord)).getD refused

/-- The fault of a step whose words are no instruction (R112-R114). -/
def fetchFault (s : State) : Reject → Raise
  | .illegalInstruction op => ⟨.illegalInstruction, op⟩
  | .truncated => truncatedFault s s.fetched

end Sys2Proof.Machine
end

