-- ==== Sys2Proof/Machine/Step.lean ====
section
/-! DEFINITION. One step of the Loop (spec/40_fetch_decode_execute.md R111, R119). -/

namespace Sys2Proof.Machine

/-- One step. Running: the instruction at the PC is executed, or the fault of its fetch is taken. Halted and Faulted
are terminal: a request changes nothing (R119). -/
def step (s : State) : Host.Outcome State Fault Refusal :=
  match s.run with
  | .running =>
    match decode s.fetched with
    | .ok (i, _) => exec i s
    | .error r => .next (s.takeFault (fetchFault s r))
  | .halted => .next s
  | .faulted _ => .next s

/-- The state with an instruction of the opcode table stored at the PC, and Running, without which no instruction is
fetched; it stands for the load of a program from outside (log 6). A word that would lie beyond address 32767 has no place and is left out. -/
def State.withFetchWord (s : State) (nbits w : Nat) : State :=
  { s with
    mem := s.mem.storeWords s.pc.toNat (wordsOfBytes (tableBytes nbits w))
    run := .running }

end Sys2Proof.Machine
end

