-- ==== Sys2Proof/Machine/Loader.lean ====
section
/-! DEFINITION. LOAD, which is reset (spec/70_reset_and_hazards.md R240-R242). -/

namespace Sys2Proof.Machine

/-- `load(B)` (R241) in a build with configuration c: reset with Memory filled from the image. An image of an odd byte
count, or longer than Memory, is refused and no run starts (R242). -/
def load (c : Config) (image : List Byte) : Option State :=
  if image.length % 2 = 0 ∧ image.length ≤ 65536 then
    some { State.reset with mem := Memory.ofImage 0 image, config := c }
  else none

end Sys2Proof.Machine
end

