-- ==== Sys2Proof/Machine/Loop.lean ====
section
/-! DEFINITION. The step as the pseudocode of spec/40_fetch_decode_execute.md R111 writes it, one fetch and one
resolution after another, and an advance of the PC of its own. `step` is the model; this is what it is compared with. -/

namespace Sys2Proof.Machine

/-- The loop "for each operand, advance a cursor and apply 4.2" (R90, R111): the word at the cursor is fetched and
then resolved by its kind; the first fetch or resolution that fails ends the step. -/
def loopOperands (s : State) : List OperandKind → Nat → Attempt (List Word)
  | [], _ => .ok []
  | k :: ks, cursor => do
    let w ← s.fetchWord (cursor + 1)
    match operandFault s k (Operand.ofWord w) with
    | some e => .error e
    | none =>
      let rest ← loopOperands s ks (cursor + 1)
      .ok (w :: rest)

/-- Fetch and decode (R111-R114): the opcode word, the check that it is at most 21, then the operands. -/
def loopFetch (s : State) : Attempt (List Word) := do
  let op ← s.fetchWord s.pc.toNat
  if 21 < op.toNat then .error ⟨.illegalInstruction, op⟩
  else do
    let rest ← loopOperands s (operandKinds op) s.pc.toNat
    .ok (op :: rest)

/-- "the opcode itself set PC (jumps/call/ret)" (R111): a conditional jump does so when it is taken (R173, R174). -/
def opcodeSetsPc (s : State) : Instr → Bool
  | .halt => false
  | .set _ _ => false
  | .push _ => false
  | .pop _ => false
  | .eq _ _ _ => false
  | .gt _ _ _ => false
  | .jmp _ => true
  | .jt a _ =>
    match value s a with
    | .ok x => decide (x ≠ 0)
    | .error _ => false
  | .jf a _ =>
    match value s a with
    | .ok x => decide (x = 0)
    | .error _ => false
  | .add _ _ _ => false
  | .mult _ _ _ => false
  | .mod _ _ _ => false
  | .and _ _ _ => false
  | .or _ _ _ => false
  | .not _ _ => false
  | .rmem _ _ => false
  | .wmem _ _ => false
  | .call _ => true
  | .ret => true
  | .out _ => false
  | .inChar _ => false
  | .noop => false

/-- "unless the opcode itself set PC (jumps/call/ret), increment PC by `1 + operand count`" (R111): the loop writes the
PC of a completed instruction itself, from the PC at the start of the step and the operand count of the opcode word,
over what the meaning left there. A step that halts (R130), faults (R205) or holds (R121) has no advance. -/
def loopAdvance (s : State) (i : Instr) (t : State) : State :=
  if t.run = .running ∧ t.waitIn = false ∧ opcodeSetsPc s i = false then
    { t with pc := BitVec.ofNat 16 (s.pc.toNat + (1 + (operandKinds i.opcode).length)) }
  else t

/-- Dispatch, then the advance (R111). -/
def loopExecute (s : State) (i : Instr) : Outcome :=
  match exec i s with
  | .next t => .next (loopAdvance s i t)
  | .fault f => .fault f
  | .refused r => .refused r

/-- `step()` of R111: `none` where the words fetched are no instruction, which never happens. -/
def loopStep (s : State) : Option Outcome :=
  match s.run with
  | .running =>
    match loopFetch s with
    | .error e => some (.next (s.takeFault e))
    | .ok words =>
      match decode words with
      | .ok (i, _) => some (loopExecute s i)
      | .error _ => none
  | .halted => some (.next s)
  | .faulted _ => some (.next s)

end Sys2Proof.Machine
end

