-- ==== Sys2Proof/Machine/Transactions.lean ====
section
/-! DEFINITION. What the host does to the CORE (spec/60_exceptions.md R222). LOAD is in Loader.lean, STEP is `step`,
EMIT is `State.emit`, READ_STATUS is `State.readStatus`. -/

namespace Sys2Proof.Machine

/-- The host has one more answer ready for a later input request. -/
def State.supply (s : State) (r : InputReply) : State :=
  { s with input := s.input ++ [r] }

/-- INPUT_REPLY (R193, R222): the answer completes the waiting `in`. An answer when none waits is refused
(DESIGN CHOICE, log 10, safe). -/
def inputReply (r : InputReply) (s : State) : Outcome :=
  if s.waiting then step (s.supply r) else .refused .noInputRequest

/-- RUN (R120, R222): STEP repeated until RUN leaves Running, or until the host stops after n steps (R221). -/
def runFor : Nat → State → Outcome
  | 0, s => .next s
  | n + 1, s =>
    match s.run with
    | .running =>
      match step s with
      | .next t => runFor n t
      | .fault f => .fault f
      | .refused r => .refused r
    | .halted => .next s
    | .faulted _ => .next s

end Sys2Proof.Machine
end

