-- ==== Sys2Proof/Safety.lean ====
section
/-! DEFINITION. What counts as a safe state and run, and the shapes claims are written in. -/

namespace Sys2Proof.Machine

/-! ### Safe states -/

/-- A run is safe as long as no fault has ended it (spec/10_state.md R34). -/
def State.notFaulted (s : State) : Prop :=
  ∀ k, s.run ≠ .faulted k

/-- The range FAULT_INFO has for each kind (spec/60_exceptions.md R204). -/
def infoInRange (k : FaultKind) (w : Word) : Prop :=
  match k with
  | .invalidOperand => 32776 ≤ w.toNat
  | .invalidDestination => w.toNat ≤ 32767 ∨ 32776 ≤ w.toNat
  | .invalidMemoryAddress => 32768 ≤ w.toNat
  | .invalidJumpTarget => 32768 ≤ w.toNat
  | .illegalInstruction => 22 ≤ w.toNat
  | .addressOutOfRange => w.toNat = 32768
  | .stackUnderflow => w = 0
  | .divideByZero => w = 0
  | .inputExhausted => w = 0
  | .stackOverflow => w = 0

/-- The fault record is 0 while Running or Halted (R35); while Faulted, FAULT_PC is the PC, which the fault left at
the faulting instruction (R203, R205), and FAULT_INFO is in its kind's range (R204). -/
def recordFits (s : State) : Prop :=
  match s.run with
  | .running => s.faultPc = 0 ∧ s.faultInfo = 0
  | .halted => s.faultPc = 0 ∧ s.faultInfo = 0
  | .faulted k => s.faultPc = s.pc ∧ infoInRange k s.faultInfo

/-- WAIT_IN is 1 only while Running with an `in` of a register destination at the PC (R36, R121). -/
def waitFits (s : State) : Prop :=
  s.waitIn = true →
    s.run = .running ∧ ∃ i rest, decode s.fetched = .ok (.inChar (.register i), rest)

/-- A bounded stack is within its bound (R31). -/
def stackFits (s : State) : Prop :=
  ∀ n, s.config.stackDepthMax = some n → s.stack.length ≤ n

/-- The invariant of the machine: it holds after reset and after every load, and every step keeps it. -/
structure Inv (s : State) : Prop where
  memory : Memory.wf s.mem
  /-- R27: the PC is in 0..32768. -/
  pc : s.pc.toNat ≤ 32768
  record : recordFits s
  wait : waitFits s
  stack : stackFits s
  config : s.config.wf = true

/-! ### What an instruction may touch -/

/-- The R operand, which names the one register the instruction may write (R22, R85). -/
def destinationOperand : Instr → Option Operand
  | .halt => none
  | .set a _ => some a
  | .push _ => none
  | .pop a => some a
  | .eq a _ _ => some a
  | .gt a _ _ => some a
  | .jmp _ => none
  | .jt _ _ => none
  | .jf _ _ => none
  | .add a _ _ => some a
  | .mult a _ _ => some a
  | .mod a _ _ => some a
  | .and a _ _ => some a
  | .or a _ _ => some a
  | .not a _ => some a
  | .rmem a _ => some a
  | .wmem _ _ => none
  | .call _ => none
  | .ret => none
  | .out _ => none
  | .inChar a => some a
  | .noop => none

/-- The table of R208: the faults an instruction can raise once its words are fetched. -/
def possibleFaults : Instr → List FaultKind
  | .halt => []
  | .set _ _ => [.invalidDestination, .invalidOperand]
  | .push _ => [.invalidOperand, .stackOverflow]
  | .pop _ => [.invalidDestination, .stackUnderflow]
  | .eq _ _ _ => [.invalidDestination, .invalidOperand]
  | .gt _ _ _ => [.invalidDestination, .invalidOperand]
  | .jmp _ => [.invalidOperand, .invalidJumpTarget]
  | .jt _ _ => [.invalidOperand, .invalidJumpTarget]
  | .jf _ _ => [.invalidOperand, .invalidJumpTarget]
  | .add _ _ _ => [.invalidDestination, .invalidOperand]
  | .mult _ _ _ => [.invalidDestination, .invalidOperand]
  | .mod _ _ _ => [.invalidDestination, .invalidOperand, .divideByZero]
  | .and _ _ _ => [.invalidDestination, .invalidOperand]
  | .or _ _ _ => [.invalidDestination, .invalidOperand]
  | .not _ _ => [.invalidDestination, .invalidOperand]
  | .rmem _ _ => [.invalidDestination, .invalidOperand, .invalidMemoryAddress]
  | .wmem _ _ => [.invalidOperand, .invalidMemoryAddress]
  | .call _ => [.invalidOperand, .invalidJumpTarget, .stackOverflow]
  | .ret => [.stackUnderflow, .invalidJumpTarget]
  | .out _ => [.invalidOperand]
  | .inChar _ => [.invalidDestination, .inputExhausted]
  | .noop => []

/-- The instructions whose register result is clamped to 15 bits (R159). -/
def clampedResult : Instr → Bool
  | .halt => false
  | .set _ _ => false
  | .push _ => false
  | .pop _ => false
  | .eq _ _ _ => false
  | .gt _ _ _ => false
  | .jmp _ => false
  | .jt _ _ => false
  | .jf _ _ => false
  | .add _ _ _ => true
  | .mult _ _ _ => true
  | .mod _ _ _ => true
  | .and _ _ _ => true
  | .or _ _ _ => true
  | .not _ _ => true
  | .rmem _ _ => false
  | .wmem _ _ => false
  | .call _ => false
  | .ret => false
  | .out _ => false
  | .inChar _ => false
  | .noop => false

/-- The instructions that may set the PC to a target (R26). -/
def transfersControl : Instr → Bool
  | .halt => false
  | .set _ _ => false
  | .push _ => false
  | .pop _ => false
  | .eq _ _ _ => false
  | .gt _ _ _ => false
  | .jmp _ => true
  | .jt _ _ => true
  | .jf _ _ => true
  | .add _ _ _ => false
  | .mult _ _ _ => false
  | .mod _ _ _ => false
  | .and _ _ _ => false
  | .or _ _ _ => false
  | .not _ _ => false
  | .rmem _ _ => false
  | .wmem _ _ => false
  | .call _ => true
  | .ret => true
  | .out _ => false
  | .inChar _ => false
  | .noop => false

/-- The instructions that may change the stack (R30). -/
def usesStack : Instr → Bool
  | .halt => false
  | .set _ _ => false
  | .push _ => true
  | .pop _ => true
  | .eq _ _ _ => false
  | .gt _ _ _ => false
  | .jmp _ => false
  | .jt _ _ => false
  | .jf _ _ => false
  | .add _ _ _ => false
  | .mult _ _ _ => false
  | .mod _ _ _ => false
  | .and _ _ _ => false
  | .or _ _ _ => false
  | .not _ _ => false
  | .rmem _ _ => false
  | .wmem _ _ => false
  | .call _ => true
  | .ret => true
  | .out _ => false
  | .inChar _ => false
  | .noop => false

/-! ### The shape of an instruction's rule -/

/-- The words of an instruction lie in Memory from the PC on. -/
def wordsAtPc (s : State) (words : List Word) : Prop :=
  ∀ k (h : k < words.length), s.fetchWord (s.pc.toNat + k) = .ok words[k]

/-- The stack is below STACK_DEPTH_MAX, or that is infinity (R31). -/
def hasRoom (s : State) : Prop :=
  ∀ n, s.config.stackDepthMax = some n → s.stack.length < n

/-- The whole rule of an instruction `a = R, b = V` of format F2 that writes a register: its words, the fault of each
operand that does not resolve, a before b, and the next state when both do. -/
def TwoOperandRule (op : Word) (mk : Operand → Operand → Instr) (f : Word → Nat) : Prop :=
  ∀ (s : State) (a b : Operand),
    encode (mk a b) = [op, a.toWord, b.toWord] ∧
    (∀ e, destination a = .error e → exec (mk a b) s = .next (s.takeFault e)) ∧
    (∀ i e, destination a = .ok i → value s b = .error e → exec (mk a b) s = .next (s.takeFault e)) ∧
    (∀ i x, destination a = .ok i → value s b = .ok x →
      exec (mk a b) s = .next { s with
        regs := s.regs.set i (BitVec.ofNat 16 (f x)), pc := s.pc + 3, waitIn := false })

/-- The operand faults of an instruction `a = R, b = V, c = V` of format F3, in the order a, b, c, and its words. -/
def ThreeOperandFaults (op : Word) (mk : Operand → Operand → Operand → Instr) : Prop :=
  ∀ (s : State) (a b c : Operand),
    encode (mk a b c) = [op, a.toWord, b.toWord, c.toWord] ∧
    (∀ e, destination a = .error e → exec (mk a b c) s = .next (s.takeFault e)) ∧
    (∀ i e, destination a = .ok i → value s b = .error e → exec (mk a b c) s = .next (s.takeFault e)) ∧
    (∀ i x e, destination a = .ok i → value s b = .ok x → value s c = .error e →
      exec (mk a b c) s = .next (s.takeFault e))

/-- The next state of an instruction `a = R, b = V, c = V` whose operands resolve to x and y in `dom`: the register
gets f x y, the PC advances by 4, WAIT_IN is 0 and everything else is unchanged. -/
def ThreeOperandResult (mk : Operand → Operand → Operand → Instr) (dom : Word → Word → Prop)
    (f : Word → Word → Nat) : Prop :=
  ∀ (s : State) (a b c : Operand) (i : RegIndex) (x y : Word),
    destination a = .ok i → value s b = .ok x → value s c = .ok y → dom x y →
      exec (mk a b c) s = .next { s with
        regs := s.regs.set i (BitVec.ofNat 16 (f x y)), pc := s.pc + 4, waitIn := false }

/-- The whole rule of a comparison or arithmetic instruction that cannot fault once its operands resolve. -/
def ThreeOperandRule (op : Word) (mk : Operand → Operand → Operand → Instr) (f : Word → Word → Nat) : Prop :=
  ThreeOperandFaults op mk ∧ ThreeOperandResult mk (fun _ _ => True) f

/-- The whole rule of a conditional jump: both operands resolve, taken or not; the target is checked only when the
jump is taken. -/
def ConditionalJumpRule (op : Word) (mk : Operand → Operand → Instr) (taken : Word → Prop) : Prop :=
  ∀ (s : State) (a b : Operand),
    encode (mk a b) = [op, a.toWord, b.toWord] ∧
    (∀ e, value s a = .error e → exec (mk a b) s = .next (s.takeFault e)) ∧
    (∀ x e, value s a = .ok x → value s b = .error e → exec (mk a b) s = .next (s.takeFault e)) ∧
    (∀ x t, value s a = .ok x → value s b = .ok t → taken x → t.toNat ≤ 32767 →
      exec (mk a b) s = .next { s with pc := t, waitIn := false }) ∧
    (∀ x t, value s a = .ok x → value s b = .ok t → taken x → 32768 ≤ t.toNat →
      exec (mk a b) s = .next (s.takeFault ⟨.invalidJumpTarget, t⟩)) ∧
    (∀ x t, value s a = .ok x → value s b = .ok t → ¬ taken x →
      exec (mk a b) s = .next { s with pc := s.pc + 3, waitIn := false })

end Sys2Proof.Machine
end

