-- ==== Sys2Proof/Certificates/Slice0/Obligations.lean ====
section
/-! DEFINITION. The statements for the provers. Each docstring names the rule of spec/ it formalises; where a clause
rests on a decision of the spec (D1..D20 of 92_eei_decisions.md) or on a choice of the model (a log entry), it says
so. In every statement that gives a next state in full, `waitIn := false` also in states no run reaches is log 8, and
the memory of bytes and the field of the configuration are the model's layout (logs 5 and 2). -/

open Sys2Proof Sys2Proof.Machine

/-! ### Encoding -/

/-- R80, R81, R85, R92, R97: decoding the words of a well-formed instruction gives the instruction back and leaves the
words after it, whatever they are. -/
def Obligations.DecodeOfEncode : Prop :=
  ∀ (i : Instr) (rest : List Word), i.wf = true → decode (encode i ++ rest) = .ok (i, rest)

/-- R80, R84, R92: what decodes is well-formed, and its words are the words that were decoded, so no two word
sequences share an instruction. -/
def Obligations.EncodeOfDecode : Prop :=
  ∀ (words : List Word) (i : Instr) (rest : List Word),
    decode words = .ok (i, rest) → i.wf = true ∧ encode i ++ rest = words

/-- R99, V10, V46, V66, V120 of 95_test_vectors.md: words the spec writes out decode to the instruction it names. -/
def Obligations.WordsOfTheSpecDecode : Prop :=
  decode [9, 32768, 4, 5] = .ok (.add (.register 0) (.literal 4) (.literal 5), []) ∧
  decode [1, 32770, 1234] = .ok (.set (.register 2) (.literal 1234), []) ∧
  decode [10, 32769, 6, 7] = .ok (.mult (.register 1) (.literal 6) (.literal 7), []) ∧
  decode [14, 32768, 0] = .ok (.not (.register 0) (.literal 0), []) ∧
  decode [16, 1, 0] = .ok (.wmem (.literal 1) (.literal 0), []) ∧
  decode [20, 32771] = .ok (.inChar (.register 3), []) ∧
  decode [22] = .error (.illegalInstruction 22)

/-- R84: the class of an operand word, by range and by bits; the register index is bits 2:0; and an invalid word fails
in every kind of operand position. -/
def Obligations.OperandWordClasses : Prop :=
  ∀ w : Word,
    (w.toNat ≤ 32767 → Operand.ofWord w = .literal (w.setWidth 15)) ∧
    (∀ i : RegIndex, w.toNat = 32768 + i.val →
      Operand.ofWord w = .register i ∧ (w.extractLsb' 0 3).toNat = i.val) ∧
    (32776 ≤ w.toNat → Operand.ofWord w = .invalid w ∧
      ∀ (s : State) (k : OperandKind), operandFault s k (Operand.ofWord w) ≠ none) ∧
    (w.toNat ≤ 32767 ↔ w.getLsbD 15 = false) ∧
    (32768 ≤ w.toNat ∧ w.toNat ≤ 32775 ↔ w.extractLsb' 3 13 = 4096#13)

/-! ### Operand resolution -/

/-- R86: a value operand is the literal as written, or the register's content as it stands, or InvalidOperand. -/
def Obligations.ValueOperandResolution : Prop :=
  ∀ (s : State) (w : Word),
    (w.toNat ≤ 32767 → value s (Operand.ofWord w) = .ok w) ∧
    (∀ i : RegIndex, w.toNat = 32768 + i.val → value s (Operand.ofWord w) = .ok s.regs[i]) ∧
    (32776 ≤ w.toNat → value s (Operand.ofWord w) = .error ⟨.invalidOperand, w⟩)

/-- R87: a register operand names its register, and any other word is InvalidDestination. -/
def Obligations.RegisterOperandResolution : Prop :=
  ∀ w : Word,
    (∀ i : RegIndex, w.toNat = 32768 + i.val → destination (Operand.ofWord w) = .ok i) ∧
    (w.toNat ≤ 32767 ∨ 32776 ≤ w.toNat →
      destination (Operand.ofWord w) = .error ⟨.invalidDestination, w⟩)

/-- R88: a memory-address operand is a value that must be an address; a literal always is. -/
def Obligations.AddressOperandResolution : Prop :=
  ∀ (s : State) (w : Word),
    (w.toNat ≤ 32767 → ∃ a : Addr, memAddress s (Operand.ofWord w) = .ok a ∧ a.val = w.toNat) ∧
    (∀ i : RegIndex, w.toNat = 32768 + i.val → s.regs[i].toNat ≤ 32767 →
      ∃ a : Addr, memAddress s (Operand.ofWord w) = .ok a ∧ a.val = s.regs[i].toNat) ∧
    (∀ i : RegIndex, w.toNat = 32768 + i.val → 32768 ≤ s.regs[i].toNat →
      memAddress s (Operand.ofWord w) = .error ⟨.invalidMemoryAddress, s.regs[i]⟩) ∧
    (32776 ≤ w.toNat → memAddress s (Operand.ofWord w) = .error ⟨.invalidOperand, w⟩)

/-! ### The step -/

/-- R111: a Running step executes exactly the instruction that the words at the PC decode to. -/
def Obligations.StepRunsDecodedInstruction : Prop :=
  ∀ (s : State) (i : Instr) (rest : List Word),
    s.run = .running → decode s.fetched = .ok (i, rest) → step s = exec i s

/-- R80, R111: a Running step with the words of a well-formed instruction in Memory at the PC executes it, whatever
lies after those words, up to the end of Memory. -/
def Obligations.StepRunsWordsInMemory : Prop :=
  ∀ (s : State) (i : Instr),
    s.run = .running → i.wf = true → wordsAtPc s (encode i) → step s = exec i s

/-- R111 with decisions D4 (an operand fetch past 32767) and D12 (a terminal state has no step): the step is the loop of
the spec's pseudocode, one fetch and one resolution after another, the first that fails ending it, and a PC that the
loop itself moves on by 1 + operand count unless the opcode set it. That the step may read its words before it decodes
is log 7. -/
def Obligations.StepIsTheLoopOfTheSpec : Prop :=
  ∀ s : State, loopStep s = some (step s)

/-- R122: a step always answers a next state, and it is of one of the five kinds. Every fault being a next state is
log 1; WAIT_IN 0 after an instruction that completes or halts is log 8. -/
def Obligations.StepOutcomes : Prop :=
  ∀ s : State, ∃ t : State, step s = .next t ∧
    ((s.run = .running ∧ t.run = .running ∧ t.waitIn = false) ∨
     (s.run = .running ∧ t = { s with run := .halted, waitIn := false }) ∨
     (s.run = .running ∧ ∃ k, t.run = .faulted k) ∨
     (s.run = .running ∧ t = { s with waitIn := true }) ∨
     (s.run ≠ .running ∧ t = s))

/-- R119, decision D12: in a terminal state a step request, and any number of them, changes nothing. -/
def Obligations.TerminalStatesStay : Prop :=
  ∀ (s : State) (n : Nat), s.run ≠ .running → step s = .next s ∧ core.run n s = .next s

/-- R112: the opcode fetch. A PC beyond 32767 faults with FAULT_PC = FAULT_INFO = PC; otherwise the opcode word is the
word at the PC; and 32768 is the only such PC of a state that meets the invariant. -/
def Obligations.OpcodeFetch : Prop :=
  ∀ s : State,
    (s.run = .running → 32768 ≤ s.pc.toNat →
      step s = .next { s with
        run := .faulted .addressOutOfRange, faultPc := s.pc, faultInfo := s.pc, waitIn := false }) ∧
    (∀ a : Addr, a.val = s.pc.toNat → s.fetchWord s.pc.toNat = .ok (s.mem.readWord a)) ∧
    (Inv s → 32768 ≤ s.pc.toNat → s.pc = 32768)

/-- R93: an opcode word 22..65535 faults IllegalInstruction with that word, whatever words follow it, and the decoder
refuses it by name. -/
def Obligations.IllegalOpcodeFaults : Prop :=
  ∀ (s : State) (a : Addr) (op : Word),
    22 ≤ op.toNat →
    (∀ rest, decode (op :: rest) = .error (.illegalInstruction op)) ∧
    (s.run = .running → a.val = s.pc.toNat → s.mem.readWord a = op →
      step s = .next { s with
        run := .faulted .illegalInstruction, faultPc := s.pc, faultInfo := op, waitIn := false })

/-- R113, decision D4, and R206: an instruction whose operand words run past address 32767. The words that are there,
`ops`, resolve first; if none of them fails, the fetch at 32768 faults. -/
def Obligations.OperandFetchPastTheEnd : Prop :=
  ∀ (s : State) (op : Word) (ops : List Word),
    s.run = .running → wordsAtPc s (op :: ops) → s.pc.toNat + 1 + ops.length = 32768 →
    ops.length < (operandKinds op).length →
    (firstOperandFault s (operandKinds op) (ops.map Operand.ofWord) = none →
      step s = .next { s with
        run := .faulted .addressOutOfRange, faultPc := s.pc, faultInfo := 32768, waitIn := false }) ∧
    (∀ e, firstOperandFault s (operandKinds op) (ops.map Operand.ofWord) = some e →
      step s = .next (s.takeFault e))

/-- R115, R206: for every instruction, the first operand in the order a, b, c that does not resolve is the fault the
instruction takes, before any fault of its execution. -/
def Obligations.FirstOperandFaultIsTaken : Prop :=
  ∀ (i : Instr) (s : State) (e : Raise),
    firstOperandFault s (operandKinds i.opcode) i.operands = some e → exec i s = .next (s.takeFault e)

/-- R117, R203, R204, R205, with decisions D3 and D5: a step that enters Faulted changes nothing but RUN, FAULT_PC,
FAULT_INFO and WAIT_IN; FAULT_PC is the PC at the start of the step, FAULT_INFO is in the range of its kind. WAIT_IN
becomes 0 by R36 (log 8). That the list of answers keeps its EndOfInput on InputExhausted is the model's choice
(log 9). -/
def Obligations.FaultsArePrecise : Prop :=
  ∀ (s t : State) (k : FaultKind),
    Inv s → s.run = .running → step s = .next t → t.run = .faulted k →
      t = { s with run := .faulted k, faultPc := s.pc, faultInfo := t.faultInfo, waitIn := false } ∧
      infoInRange k t.faultInfo

/-- R208 and R201: an instruction raises only the faults of its row of the table, StackOverflow only in a bounded
build. -/
def Obligations.FaultsOfEachInstruction : Prop :=
  ∀ (i : Instr) (s t : State) (k : FaultKind),
    s.run = .running → exec i s = .next t → t.run = .faulted k →
      k ∈ possibleFaults i ∧ (k = .stackOverflow → s.config.stackDepthMax ≠ none)

/-! ### Machine control -/

/-- R130, decision D6 for the PC: halt halts, at any PC, writes nothing else; and a step that finds the word 0 at the
PC, as in Memory that nothing has filled, does so. -/
def Obligations.HaltRule : Prop :=
  ∀ s : State,
    exec .halt s = .next { s with run := .halted, waitIn := false } ∧ encode .halt = [0] ∧
    (s.run = .running → s.fetchWord s.pc.toNat = .ok 0 →
      step s = .next { s with run := .halted, waitIn := false })

/-- R131: noop only advances the PC; at address 32767 it leaves PC = 32768, and the following step faults. -/
def Obligations.NoopRule : Prop :=
  ∀ s : State,
    exec .noop s = .next { s with pc := s.pc + 1, waitIn := false } ∧ encode .noop = [21] ∧
    (s.run = .running → s.fetchWord s.pc.toNat = .ok 21 → s.pc = 32767 →
      ∃ t, step s = .next t ∧ t = { s with pc := 32768, waitIn := false } ∧
        step t = .next { t with run := .faulted .addressOutOfRange, faultPc := 32768, faultInfo := 32768 })

/-! ### Register move and stack -/

/-- R140: set. -/
def Obligations.SetRule : Prop :=
  TwoOperandRule 1 .set (fun x => x.toNat)

/-- R141, R31 (decision D1; the configuration in the state is log 2): push, with StackOverflow only in a bounded build
whose stack is full. R31 says so of a depth equal to the bound; that a deeper stack counts as full is the model's
choice (log 14). -/
def Obligations.PushRule : Prop :=
  ∀ (s : State) (a : Operand),
    encode (.push a) = [2, a.toWord] ∧
    (∀ e, value s a = .error e → exec (.push a) s = .next (s.takeFault e)) ∧
    (∀ v n, value s a = .ok v → s.config.stackDepthMax = some n → n ≤ s.stack.length →
      exec (.push a) s = .next (s.takeFault ⟨.stackOverflow, 0⟩)) ∧
    (∀ v, value s a = .ok v → hasRoom s →
      exec (.push a) s = .next { s with
        stack := s.stack ++ [v], pc := s.pc + 2, waitIn := false })

/-- R142: pop, the destination resolved before the stack is looked at. -/
def Obligations.PopRule : Prop :=
  ∀ (s : State) (a : Operand),
    encode (.pop a) = [3, a.toWord] ∧
    (∀ e, destination a = .error e → exec (.pop a) s = .next (s.takeFault e)) ∧
    (∀ i, destination a = .ok i → s.stack = [] →
      exec (.pop a) s = .next (s.takeFault ⟨.stackUnderflow, 0⟩)) ∧
    (∀ i below v, destination a = .ok i → s.stack = below ++ [v] →
      exec (.pop a) s = .next { s with
        regs := s.regs.set i v, stack := below, pc := s.pc + 2, waitIn := false })

/-- R143: push v; pop r leaves reg[r] = v and restores the stack, whenever the push does not fault. -/
def Obligations.PushPopRoundTrip : Prop :=
  ∀ (s : State) (a : Operand) (v : Word) (r : RegIndex),
    value s a = .ok v → hasRoom s →
      ∃ t u, exec (.push a) s = .next t ∧ exec (.pop (.register r)) t = .next u ∧
        u.regs[r] = v ∧ u.stack = s.stack ∧ u.stack.length = s.stack.length

/-! ### Comparison, arithmetic and logic -/

/-- R150: eq compares full 16-bit values. -/
def Obligations.EqRule : Prop :=
  ThreeOperandRule 4 .eq (fun x y => if x = y then 1 else 0)

/-- R151: gt is unsigned and strict. -/
def Obligations.GtRule : Prop :=
  ThreeOperandRule 5 .gt (fun x y => if y.toNat < x.toNat then 1 else 0)

/-- R152: add. -/
def Obligations.AddRule : Prop :=
  ThreeOperandRule 9 .add (fun x y => (x.toNat + y.toNat) % 32768)

/-- R153: mult. -/
def Obligations.MultRule : Prop :=
  ThreeOperandRule 10 .mult (fun x y => (x.toNat * y.toNat) % 32768)

/-- R154 with decision D8 for operand values above 32767: mod, DivideByZero after the operands resolve. -/
def Obligations.ModRule : Prop :=
  ThreeOperandFaults 11 .mod ∧
  ThreeOperandResult .mod (fun _ y => y ≠ 0) (fun x y => (x.toNat % y.toNat) % 32768) ∧
  ∀ (s : State) (a b c : Operand) (i : RegIndex) (x : Word),
    destination a = .ok i → value s b = .ok x → value s c = .ok 0 →
      exec (.mod a b c) s = .next (s.takeFault ⟨.divideByZero, 0⟩)

/-- R155 with decision D8 for operand values above 32767: and. -/
def Obligations.AndRule : Prop :=
  ThreeOperandRule 12 .and (fun x y => (x.toNat &&& y.toNat) % 32768)

/-- R156 with decision D8 for operand values above 32767: or. -/
def Obligations.OrRule : Prop :=
  ThreeOperandRule 13 .or (fun x y => (x.toNat ||| y.toNat) % 32768)

/-- R157: not is the 15-bit complement, 32767 - (x mod 32768). -/
def Obligations.NotRule : Prop :=
  TwoOperandRule 14 .not (fun x => 32767 - x.toNat % 32768)

/-- R160: on 0..32767 add and mult give the sum and the product mod 32768; add, mult, and, or, eq are commutative and
add and mult associative for all words; mod by 0 always faults; not is its own inverse on 0..32767; and subtraction
from add and not. -/
def Obligations.ArithmeticLaws : Prop :=
  (∀ (s : State) (i : RegIndex) (x y : BitVec 15),
    exec (.add (.register i) (.literal x) (.literal y)) s = .next { s with
      regs := s.regs.set i (BitVec.ofNat 16 ((x.toNat + y.toNat) % 32768)), pc := s.pc + 4, waitIn := false } ∧
    exec (.mult (.register i) (.literal x) (.literal y)) s = .next { s with
      regs := s.regs.set i (BitVec.ofNat 16 ((x.toNat * y.toNat) % 32768)), pc := s.pc + 4, waitIn := false }) ∧
  (∀ x y : Word, aluAdd x y = aluAdd y x ∧ aluMult x y = aluMult y x ∧ aluAnd x y = aluAnd y x ∧
    aluOr x y = aluOr y x ∧ aluEq x y = aluEq y x) ∧
  (∀ x y z : Word, aluAdd (aluAdd x y) z = aluAdd x (aluAdd y z) ∧
    aluMult (aluMult x y) z = aluMult x (aluMult y z)) ∧
  (∀ (s : State) (i : RegIndex) (b c : Operand) (x : Word), value s b = .ok x → value s c = .ok 0 →
    exec (.mod (.register i) b c) s = .next (s.takeFault ⟨.divideByZero, 0⟩)) ∧
  (∀ x : Word, x.toNat ≤ 32767 → aluNot (aluNot x) = x) ∧
  (∀ x y : Word, x.toNat ≤ 32767 → y.toNat ≤ 32767 →
    ((aluAdd x (BitVec.ofNat 16 ((32768 - y.toNat) % 32768))).toNat : Int) =
      ((x.toNat : Int) - (y.toNat : Int)) % 32768 ∧
    (aluAdd (aluNot y) 1).toNat = (32768 - y.toNat) % 32768)

/-- R159, decision D8: whenever add, mult, mod, and, or or not completes, the register it writes holds 0..32767. -/
def Obligations.ArithmeticResultsAreLiterals : Prop :=
  ∀ (i : Instr) (s t : State) (r : RegIndex),
    clampedResult i = true → destinationOperand i = some (.register r) →
    s.run = .running → exec i s = .next t → t.run = .running → t.regs[r].toNat ≤ 32767

/-! ### Control transfer -/

/-- R172, R171: jmp. -/
def Obligations.JmpRule : Prop :=
  ∀ (s : State) (a : Operand),
    encode (.jmp a) = [6, a.toWord] ∧
    (∀ e, value s a = .error e → exec (.jmp a) s = .next (s.takeFault e)) ∧
    (∀ t, value s a = .ok t → t.toNat ≤ 32767 →
      exec (.jmp a) s = .next { s with pc := t, waitIn := false }) ∧
    (∀ t, value s a = .ok t → 32768 ≤ t.toNat →
      exec (.jmp a) s = .next (s.takeFault ⟨.invalidJumpTarget, t⟩))

/-- R173, R174, with decision D7 (an untaken jump does not check its target): jt and jf. -/
def Obligations.ConditionalJumpRules : Prop :=
  ConditionalJumpRule 7 .jt (fun x => x ≠ 0) ∧ ConditionalJumpRule 8 .jf (fun x => x = 0)

/-- R175 with decisions D1 and D5: call; the target is checked, then the depth, and the return address pushed is
pc + 2. The configuration in the state is log 2; R175 overflows at a depth equal to the bound, and that a deeper stack
counts as full is the model's choice (log 14). -/
def Obligations.CallRule : Prop :=
  ∀ (s : State) (a : Operand),
    encode (.call a) = [17, a.toWord] ∧
    (∀ e, value s a = .error e → exec (.call a) s = .next (s.takeFault e)) ∧
    (∀ t, value s a = .ok t → 32768 ≤ t.toNat →
      exec (.call a) s = .next (s.takeFault ⟨.invalidJumpTarget, t⟩)) ∧
    (∀ t n, value s a = .ok t → t.toNat ≤ 32767 → s.config.stackDepthMax = some n → n ≤ s.stack.length →
      exec (.call a) s = .next (s.takeFault ⟨.stackOverflow, 0⟩)) ∧
    (∀ t, value s a = .ok t → t.toNat ≤ 32767 → hasRoom s →
      exec (.call a) s = .next { s with stack := s.stack ++ [s.pc + 2], pc := t, waitIn := false })

/-- R176 with decision D5: ret; an empty stack, then the target, is checked before the pop. -/
def Obligations.RetRule : Prop :=
  encode .ret = [18] ∧
  ∀ s : State,
    (s.stack = [] → exec .ret s = .next (s.takeFault ⟨.stackUnderflow, 0⟩)) ∧
    (∀ below t, s.stack = below ++ [t] → 32768 ≤ t.toNat →
      exec .ret s = .next (s.takeFault ⟨.invalidJumpTarget, t⟩)) ∧
    (∀ below t, s.stack = below ++ [t] → t.toNat ≤ 32767 →
      exec .ret s = .next { s with stack := below, pc := t, waitIn := false })

/-- R177: call addr; .. ret resumes just after the call with the stack as it was, whatever ran between them, as long
as it left the stack as it found it and the address after the call is a program address. -/
def Obligations.CallThenRetResumes : Prop :=
  ∀ (s : State) (a : Operand) (t : Word),
    value s a = .ok t → t.toNat ≤ 32767 → hasRoom s → s.pc.toNat + 2 ≤ 32767 →
      ∃ u, exec (.call a) s = .next u ∧ u.pc = t ∧
        ∀ v : State, v.stack = u.stack →
          ∃ w, exec .ret v = .next w ∧ w.pc.toNat = s.pc.toNat + 2 ∧ w.stack = s.stack

/-! ### Memory -/

/-- R180, decision D9 for words above 32767: rmem copies the whole word, unchanged. -/
def Obligations.RmemRule : Prop :=
  ∀ (s : State) (a b : Operand),
    encode (.rmem a b) = [15, a.toWord, b.toWord] ∧
    (∀ e, destination a = .error e → exec (.rmem a b) s = .next (s.takeFault e)) ∧
    (∀ i e, destination a = .ok i → memAddress s b = .error e → exec (.rmem a b) s = .next (s.takeFault e)) ∧
    (∀ i addr, destination a = .ok i → memAddress s b = .ok addr →
      exec (.rmem a b) s = .next { s with
        regs := s.regs.set i (s.mem.readWord addr), pc := s.pc + 3, waitIn := false })

/-- R181: wmem writes the whole word: in a canonical memory it is read back, and in any memory every byte outside the
word at the address is as before. -/
def Obligations.WmemRule : Prop :=
  ∀ (s : State) (a b : Operand),
    encode (.wmem a b) = [16, a.toWord, b.toWord] ∧
    (∀ e, memAddress s a = .error e → exec (.wmem a b) s = .next (s.takeFault e)) ∧
    (∀ addr e, memAddress s a = .ok addr → value s b = .error e → exec (.wmem a b) s = .next (s.takeFault e)) ∧
    (∀ addr v, memAddress s a = .ok addr → value s b = .ok v →
      ∃ m, exec (.wmem a b) s = .next { s with mem := m, pc := s.pc + 3, waitIn := false } ∧
        (Memory.wf s.mem → m.readWord addr = v) ∧
        ∀ n, n ≠ 2 * addr.val → n ≠ 2 * addr.val + 1 → m.readByte n = s.mem.readByte n)

/-- R58, R61: a word that is written is read back, and every other word reads as before. -/
def Obligations.ReadAfterWrite : Prop :=
  ∀ (m : Memory) (a b : Addr) (v : Word), Memory.wf m →
    (m.writeWord a v).readWord b = if b = a then v else m.readWord b

/-- R66: the next fetch of a written address sees the new word, and every other fetch is as before. -/
def Obligations.FetchSeesStores : Prop :=
  ∀ (s t : State) (a b : Operand) (addr : Addr) (v : Word),
    Memory.wf s.mem → memAddress s a = .ok addr → value s b = .ok v → exec (.wmem a b) s = .next t →
      ∀ n, t.fetchWord n = if n = addr.val then .ok v else s.fetchWord n

/-! ### Console -/

/-- R190, R192: out emits the value mod 256, and never blocks or fails once its operand resolves. -/
def Obligations.OutRule : Prop :=
  ∀ (s : State) (a : Operand),
    encode (.out a) = [19, a.toWord] ∧
    (∀ e, value s a = .error e → exec (.out a) s = .next (s.takeFault e)) ∧
    (∀ v, value s a = .ok v →
      exec (.out a) s = .next { s with
        output := s.output ++ [BitVec.ofNat 8 (v.toNat % 256)], pc := s.pc + 2, waitIn := false })

/-- R191, R193, decision D10; the list of answers is the model's own (log 3): in, with a character ready, with the end
of input, with no answer yet, where it holds, and with a destination that does not resolve, where no input is asked
for. That the answer EndOfInput stays in the list after the fault is the model's choice (log 9). -/
def Obligations.InRule : Prop :=
  ∀ (s : State) (a : Operand),
    encode (.inChar a) = [20, a.toWord] ∧
    (∀ e, destination a = .error e → exec (.inChar a) s = .next (s.takeFault e)) ∧
    (∀ i c rest, destination a = .ok i → s.input = .char c :: rest →
      exec (.inChar a) s = .next { s with
        regs := s.regs.set i (BitVec.ofNat 16 c.toNat), input := rest, pc := s.pc + 2, waitIn := false }) ∧
    (∀ i rest, destination a = .ok i → s.input = .endOfInput :: rest →
      exec (.inChar a) s = .next (s.takeFault ⟨.inputExhausted, 0⟩)) ∧
    (∀ i, destination a = .ok i → s.input = [] → exec (.inChar a) s = .next { s with waitIn := true })

/-- R121, R193, decision D19: without an answer an in holds: only WAIT_IN changes, STATUS shows it, and further step
requests change nothing at all. That no answer is an empty list is the model's own (log 3). -/
def Obligations.InHolds : Prop :=
  ∀ (s : State) (i : RegIndex) (rest : List Word),
    s.run = .running → decode s.fetched = .ok (.inChar (.register i), rest) → s.input = [] →
      step s = .next { s with waitIn := true } ∧
      State.status { s with waitIn := true } = 4 ∧
      ∀ n, core.run n { s with waitIn := true } = .next { s with waitIn := true }

/-- R193, R222: the host's answer completes the waiting in, with the character in its register or with
InputExhausted; an answer that nothing waits for is refused (the model's choice, log 10). The list of answers is the
model's own (log 3). -/
def Obligations.InputReplyCompletes : Prop :=
  ∀ (s : State) (i : RegIndex) (rest : List Word),
    (s.run = .running → s.waitIn = true → decode s.fetched = .ok (.inChar (.register i), rest) → s.input = [] →
      (∀ c, inputReply (.char c) s = .next { s with
        regs := s.regs.set i (BitVec.ofNat 16 c.toNat), pc := s.pc + 2, waitIn := false }) ∧
      (∃ t, inputReply .endOfInput s = .next t ∧ t.run = .faulted .inputExhausted ∧ t.faultPc = s.pc ∧
        t.faultInfo = 0 ∧ t.regs = s.regs ∧ t.mem = s.mem ∧ t.pc = s.pc ∧ t.stack = s.stack ∧
        t.output = s.output)) ∧
    (∀ r, s.run ≠ .running ∨ s.waitIn = false → inputReply r s = .refused .noInputRequest)

/-! ### What instructions leave unchanged -/

/-- R22: every register but the one the R operand names is unchanged by every instruction, in particular every
register by halt, push, jmp, jt, jf, wmem, call, ret, out and noop. -/
def Obligations.RegisterFrame : Prop :=
  ∀ (i : Instr) (s t : State) (r : RegIndex),
    exec i s = .next t → destinationOperand i ≠ some (.register r) → t.regs[r] = s.regs[r]

/-- R37: only wmem writes Memory, and only the two bytes of the word at the address its operand a resolves to. -/
def Obligations.MemoryFrame : Prop :=
  ∀ (i : Instr) (s t : State) (n : Nat),
    exec i s = .next t →
    (∀ a b addr, i = .wmem a b → memAddress s a = .ok addr → n ≠ 2 * addr.val ∧ n ≠ 2 * addr.val + 1) →
    t.mem.readByte n = s.mem.readByte n

/-- R29, R30: only push, pop, call and ret touch the stack. push and call leave it or add one word on top, the value
of the operand or pc + 2; pop and ret leave it or take the top word. -/
def Obligations.StackFrame : Prop :=
  ∀ (i : Instr) (s t : State), exec i s = .next t →
    (usesStack i = false → t.stack = s.stack) ∧
    (∀ a, i = .push a → t.stack = s.stack ∨ ∃ v, value s a = .ok v ∧ t.stack = s.stack ++ [v]) ∧
    (∀ a, i = .call a → t.stack = s.stack ∨ t.stack = s.stack ++ [s.pc + 2]) ∧
    (∀ a, i = .pop a → t.stack = s.stack ∨ ∃ v, s.stack = t.stack ++ [v]) ∧
    (i = .ret → t.stack = s.stack ∨ ∃ v, s.stack = t.stack ++ [v])

/-- R192, R194 for the output: only out emits, at most one code. The clause on the list of answers is about the model's
own field (log 3): only in takes an answer, at most one, and it is a character, since an in that faults InputExhausted
leaves EndOfInput in the list (log 9); both are the model's choice. -/
def Obligations.ConsoleFrame : Prop :=
  ∀ (i : Instr) (s t : State), exec i s = .next t →
    (t.output = s.output ∨ ∃ a v, i = .out a ∧ value s a = .ok v ∧
      t.output = s.output ++ [BitVec.ofNat 8 (v.toNat % 256)]) ∧
    (t.input = s.input ∨ ∃ r c, i = .inChar (.register r) ∧ s.input = .char c :: t.input)

/-- R34, R35, R36 for RUN, the fault record and WAIT_IN: RUN and the fault record change only when halt halts or a fault
is taken; WAIT_IN is 1 after no instruction but an in. The model's choices in it: the configuration is a field that no
instruction changes (log 2), an in holds when the list of answers is empty (log 3), and WAIT_IN is 0 after every other
instruction in every state, also in one that no run reaches (log 8). -/
def Obligations.StatusFrame : Prop :=
  ∀ (i : Instr) (s t : State), exec i s = .next t →
    t.config = s.config ∧
    ((t.run = s.run ∧ t.faultPc = s.faultPc ∧ t.faultInfo = s.faultInfo) ∨
     (i = .halt ∧ t.run = .halted ∧ t.faultPc = s.faultPc ∧ t.faultInfo = s.faultInfo) ∨
     ∃ e, t = s.takeFault e) ∧
    (t.waitIn = true → ∃ r, i = .inChar (.register r) ∧ s.input = [])

/-- R26, R118: an instruction that completes and stays Running leaves the PC at pc + len without wrapping, unless it
is a transfer, and then possibly at a program address. -/
def Obligations.PcAfterCompletion : Prop :=
  ∀ (i : Instr) (s t : State),
    s.pc.toNat + i.length ≤ 32768 → exec i s = .next t → t.run = .running → t.waitIn = false →
      t.pc.toNat = s.pc.toNat + i.length ∨ (transfersControl i = true ∧ t.pc.toNat ≤ 32767)

/-! ### The host's view -/

/-- R36, R201, decisions D2 and D15: the fields of STATUS, and the code of each fault kind. -/
def Obligations.StatusRegisterFields : Prop :=
  ∀ s : State,
    (s.status.extractLsb' 0 2 = match s.run with
      | .running => 0#2
      | .halted => 1#2
      | .faulted _ => 2#2) ∧
    (s.status.getLsbD 2 = true ↔ s.run = .running ∧ s.waitIn = true) ∧
    s.status.getLsbD 3 = false ∧
    (s.run = .faulted .invalidOperand → s.status.extractLsb' 4 4 = 1#4) ∧
    (s.run = .faulted .invalidDestination → s.status.extractLsb' 4 4 = 2#4) ∧
    (s.run = .faulted .invalidMemoryAddress → s.status.extractLsb' 4 4 = 3#4) ∧
    (s.run = .faulted .invalidJumpTarget → s.status.extractLsb' 4 4 = 4#4) ∧
    (s.run = .faulted .illegalInstruction → s.status.extractLsb' 4 4 = 5#4) ∧
    (s.run = .faulted .addressOutOfRange → s.status.extractLsb' 4 4 = 6#4) ∧
    (s.run = .faulted .stackUnderflow → s.status.extractLsb' 4 4 = 7#4) ∧
    (s.run = .faulted .divideByZero → s.status.extractLsb' 4 4 = 8#4) ∧
    (s.run = .faulted .inputExhausted → s.status.extractLsb' 4 4 = 9#4) ∧
    (s.run = .faulted .stackOverflow → s.status.extractLsb' 4 4 = 10#4) ∧
    (s.notFaulted → s.status.extractLsb' 4 4 = 0) ∧
    s.status.extractLsb' 8 8 = 0

/-- R36, R38, R216: programs cannot see the output trace or the fault record: two states that differ only in them step
to states that agree in everything else. The output trace, the list of answers and the configuration are fields of the
model (logs 4, 3 and 2). -/
def Obligations.HostViewIsInvisible : Prop :=
  ∀ (s t t' : State) (o : List Byte) (p q : Word),
    step s = .next t → step { s with output := o, faultPc := p, faultInfo := q } = .next t' →
      t'.mem = t.mem ∧ t'.regs = t.regs ∧ t'.pc = t.pc ∧ t'.stack = t.stack ∧ t'.run = t.run ∧
      t'.waitIn = t.waitIn ∧ t'.input = t.input ∧ t'.config = t.config

/-! ### Reset -/

/-- R24, R28, R32, R34, R40, R240: the state after reset. That the image is empty, that no answer is ready and that
the stack is unbounded are the model's choices (logs 6, 3 and 2). -/
def Obligations.ResetValues : Prop :=
  (∀ a : Addr, State.reset.mem.readWord a = 0) ∧ (∀ i : RegIndex, State.reset.regs[i] = 0) ∧
  State.reset.pc = 0 ∧ State.reset.stack = [] ∧ State.reset.run = .running ∧ State.reset.waitIn = false ∧
  State.reset.readStatus = (0, 0, 0) ∧ State.reset.output = [] ∧ State.reset.input = [] ∧
  State.reset.config.stackDepthMax = none

/-- R53, R241, and R242 with decision D16 for the images refused: LOAD fills Memory with the little-endian words of the
image and zero beyond it, and leaves every other field of the spec as after reset. The model's choices in it: the
configuration is the one of the build that is loaded (log 2), and no answer is ready after a load (log 3). -/
def Obligations.LoadFillsMemory : Prop :=
  ∀ (c : Config) (image : List Byte),
    (image.length % 2 = 0 → image.length ≤ 65536 →
      ∃ s, load c image = some s ∧ s = { State.reset with mem := s.mem, config := c } ∧
        ∀ a : Addr, (s.mem.readWord a).toNat =
          if h : 2 * a.val + 1 < image.length then
            image[2 * a.val].toNat + 256 * image[2 * a.val + 1].toNat
          else 0) ∧
    (image.length % 2 = 1 ∨ 65536 < image.length → load c image = none)

/-- R27, R31, R35, R36, R40: reset, and every load in a build whose bound is at least 1, meets the invariant. The
canonical memory of bytes and the configuration in it are the model's layout (logs 5 and 2). -/
def Obligations.ResetMeetsInvariant : Prop :=
  Inv State.reset ∧ ∀ (c : Config) (image : List Byte) (s : State),
    c.wf = true → load c image = some s → Inv s

/-- R27, R31, R34, R35, R36, R203, R204: every step, and every answer of the host, keeps the invariant: the canonical
memory, the PC in 0..32768, the fault record, WAIT_IN, the stack's bound. The canonical memory of bytes and the
configuration in it are the model's layout (logs 5 and 2). -/
def Obligations.StepKeepsInvariant : Prop :=
  ∀ s t : State, Inv s →
    (step s = .next t → Inv t) ∧ ∀ r : InputReply, inputReply r s = .next t → Inv t
end

