-- ==== Sys2Proof/Laws/Memory.lean ====
section
/-! SUPPORT. Memory: what a read gives after a write, and that every operation keeps the canonical form. -/

namespace Sys2Proof.Machine

@[simp] theorem Memory.readByte_nil (n : Nat) : Memory.readByte [] n = Memory.unlisted := rfl

@[simp] theorem Memory.readByte_cons (k : Nat) (w : Byte) (rest : Memory) (n : Nat) :
    Memory.readByte ((k, w) :: rest) n = if n = k then w else rest.readByte n := rfl

/-! ### The canonical form -/

/-- The tail of a canonical memory is canonical, and lists only higher addresses. -/
theorem Memory.wf_cons {k : Nat} {w : Byte} {rest : Memory} :
    Memory.wf ((k, w) :: rest) ↔
      k < 65536 ∧ w ≠ Memory.unlisted ∧ (∀ c ∈ rest, k < c.1) ∧ Memory.wf rest := by
  simp only [Memory.wf, List.pairwise_cons, List.forall_mem_cons]
  constructor
  · rintro ⟨⟨hlt, hp⟩, ⟨hk, hw⟩, hr⟩
    exact ⟨hk, hw, hlt, hp, hr⟩
  · rintro ⟨hk, hw, hlt, hp, hr⟩
    exact ⟨⟨hlt, hp⟩, ⟨hk, hw⟩, hr⟩

/-- Below the lowest listed address every byte is unlisted. -/
theorem Memory.readByte_of_lt {m : Memory} {n : Nat} (h : ∀ c ∈ m, n < c.1) :
    m.readByte n = Memory.unlisted := by
  induction m with
  | nil => rfl
  | cons c rest ih =>
    obtain ⟨k, w⟩ := c
    have hk : n < k := h (k, w) (by simp)
    rw [Memory.readByte_cons, if_neg (by omega)]
    exact ih fun c hc => h c (by simp [hc])

theorem Memory.mem_putByte {n : Nat} {v : Byte} {rest : Memory} {c : Host.Cell}
    (h : c ∈ Memory.putByte n v rest) : c = (n, v) ∨ c ∈ rest := by
  unfold Memory.putByte at h
  split at h
  · exact .inr h
  · simpa using h

/-- Putting a byte below every listed address keeps the canonical form. -/
theorem Memory.putByte_wf {n : Nat} {v : Byte} {rest : Memory} (hn : n < 65536)
    (hlt : ∀ c ∈ rest, n < c.1) (h : Memory.wf rest) : Memory.wf (Memory.putByte n v rest) := by
  unfold Memory.putByte
  split
  · exact h
  · exact Memory.wf_cons.mpr ⟨hn, by assumption, hlt, h⟩

/-- A written memory lists the written address and addresses listed before, no other. -/
theorem Memory.mem_writeByte {m : Memory} {n : Nat} {v : Byte} {c : Host.Cell}
    (h : c ∈ m.writeByte n v) : c = (n, v) ∨ c ∈ m := by
  induction m with
  | nil => exact Memory.mem_putByte h
  | cons d rest ih =>
    obtain ⟨k, w⟩ := d
    simp only [Memory.writeByte] at h
    split at h
    · exact Memory.mem_putByte h
    · split at h
      · exact (Memory.mem_putByte h).imp id fun hc => by simp [hc]
      · rcases List.mem_cons.mp h with rfl | hc
        · exact .inr (by simp)
        · exact (ih hc).imp id fun hc => by simp [hc]

/-- A byte write inside Memory keeps the canonical form. -/
theorem Memory.writeByte_wf {m : Memory} {n : Nat} {v : Byte} (hn : n < 65536) (h : Memory.wf m) :
    Memory.wf (m.writeByte n v) := by
  induction m with
  | nil => exact Memory.putByte_wf hn (by simp) h
  | cons d rest ih =>
    obtain ⟨k, w⟩ := d
    obtain ⟨hk, hw, hlt, hr⟩ := Memory.wf_cons.mp h
    simp only [Memory.writeByte]
    split
    · rename_i hnk
      refine Memory.putByte_wf hn (fun c hc => ?_) h
      rcases List.mem_cons.mp hc with rfl | hc
      · exact hnk
      · exact Nat.lt_trans hnk (hlt c hc)
    · split
      · rename_i hnk
        exact Memory.putByte_wf hn (fun c hc => hnk ▸ hlt c hc) hr
      · refine Memory.wf_cons.mpr ⟨hk, hw, fun c hc => ?_, ih hr⟩
        rcases Memory.mem_writeByte hc with rfl | hc
        · show k < n
          omega
        · exact hlt c hc

/-- A word write keeps the canonical form. -/
theorem Memory.writeWord_wf {m : Memory} {a : Addr} {v : Word} (h : Memory.wf m) :
    Memory.wf (m.writeWord a v) := by
  have ha := a.isLt
  exact Memory.writeByte_wf (by omega) (Memory.writeByte_wf (by omega) h)

/-- Storing words keeps the canonical form. -/
theorem Memory.storeWords_wf {ws : List Word} {m : Memory} {n : Nat} (h : Memory.wf m) :
    Memory.wf (m.storeWords n ws) := by
  induction ws generalizing m n with
  | nil => exact h
  | cons w rest ih =>
    simp only [Memory.storeWords]
    split
    · exact ih (Memory.writeWord_wf h)
    · exact h

theorem Memory.le_of_mem_ofImage {bs : List Byte} {n : Nat} {c : Host.Cell}
    (h : c ∈ Memory.ofImage n bs) : n ≤ c.1 := by
  induction bs generalizing n with
  | nil => simp [Memory.ofImage] at h
  | cons b rest ih =>
    rcases Memory.mem_putByte h with rfl | hc
    · exact Nat.le_refl n
    · have := ih hc
      omega

/-- The memory of an image that fits is canonical. -/
theorem Memory.ofImage_wf {bs : List Byte} {n : Nat} (h : n + bs.length ≤ 65536) :
    Memory.wf (Memory.ofImage n bs) := by
  induction bs generalizing n with
  | nil => simp [Memory.ofImage, Memory.wf]
  | cons b rest ih =>
    simp only [List.length_cons] at h
    refine Memory.putByte_wf (by omega) (fun c hc => ?_) (ih (by omega))
    have := Memory.le_of_mem_ofImage hc
    omega

/-! ### Reading after writing, byte by byte -/

theorem Memory.readByte_putByte_of_ne {n k : Nat} {v : Byte} {rest : Memory} (h : n ≠ k) :
    (Memory.putByte k v rest).readByte n = rest.readByte n := by
  unfold Memory.putByte
  split
  · rfl
  · rw [Memory.readByte_cons, if_neg h]

theorem Memory.readByte_putByte_same {n : Nat} {v : Byte} {rest : Memory}
    (h : ∀ c ∈ rest, n < c.1) : (Memory.putByte n v rest).readByte n = v := by
  unfold Memory.putByte
  split
  · rename_i hv
    rw [hv]
    exact Memory.readByte_of_lt h
  · rw [Memory.readByte_cons, if_pos rfl]

/-- A byte write leaves every other byte alone, in any memory. -/
theorem Memory.readByte_writeByte_of_ne {m : Memory} {n k : Nat} {v : Byte} (h : n ≠ k) :
    (m.writeByte k v).readByte n = m.readByte n := by
  induction m with
  | nil => exact Memory.readByte_putByte_of_ne h
  | cons d rest ih =>
    obtain ⟨j, w⟩ := d
    simp only [Memory.writeByte]
    split
    · exact Memory.readByte_putByte_of_ne h
    · split
      · rename_i hkj
        rw [Memory.readByte_putByte_of_ne h, Memory.readByte_cons, if_neg (hkj ▸ h)]
      · simp only [Memory.readByte_cons, ih]

/-- A byte write is read back, in a canonical memory. -/
theorem Memory.readByte_writeByte_same {m : Memory} {n : Nat} {v : Byte} (h : Memory.wf m) :
    (m.writeByte n v).readByte n = v := by
  induction m with
  | nil => exact Memory.readByte_putByte_same (by simp)
  | cons d rest ih =>
    obtain ⟨k, w⟩ := d
    obtain ⟨_, _, hlt, hr⟩ := Memory.wf_cons.mp h
    simp only [Memory.writeByte]
    split
    · rename_i hnk
      refine Memory.readByte_putByte_same fun c hc => ?_
      rcases List.mem_cons.mp hc with rfl | hc
      · exact hnk
      · exact Nat.lt_trans hnk (hlt c hc)
    · split
      · rename_i hnk
        exact Memory.readByte_putByte_same fun c hc => hnk ▸ hlt c hc
      · rename_i hnk
        rw [Memory.readByte_cons, if_neg hnk]
        exact ih hr

/-- A word write changes only its own two bytes. -/
theorem Memory.readByte_writeWord_of_ne {m : Memory} {a : Addr} {v : Word} {n : Nat}
    (h0 : n ≠ 2 * a.val) (h1 : n ≠ 2 * a.val + 1) : (m.writeWord a v).readByte n = m.readByte n := by
  rw [Memory.writeWord, Memory.readByte_writeByte_of_ne h1, Memory.readByte_writeByte_of_ne h0]

/-- The byte of an image at an offset, and unlisted outside it. -/
theorem Memory.readByte_ofImage {bs : List Byte} {k n : Nat} :
    (Memory.ofImage k bs).readByte (k + n) = bs.getD n Memory.unlisted := by
  induction bs generalizing k n with
  | nil => simp [Memory.ofImage]
  | cons b rest ih =>
    cases n with
    | zero =>
      refine Memory.readByte_putByte_same fun c hc => ?_
      have := Memory.le_of_mem_ofImage hc
      omega
    | succ n =>
      rw [Memory.ofImage, Memory.readByte_putByte_of_ne (by omega)]
      have := ih (k := k + 1) (n := n)
      rw [show k + (n + 1) = k + 1 + n by omega, this]
      simp

/-! ### The bytes of a word -/

theorem wordOfBytes_toNat (lo hi : Byte) : (wordOfBytes lo hi).toNat = lo.toNat + 256 * hi.toNat := by
  have hlo := lo.isLt
  rw [wordOfBytes, BitVec.toNat_append, Nat.shiftLeft_eq, Nat.mul_comm hi.toNat,
    ← Nat.two_pow_add_eq_or_of_lt hlo]
  omega

theorem lowByte_wordOfBytes (lo hi : Byte) : lowByte (wordOfBytes lo hi) = lo := by
  apply BitVec.eq_of_toNat_eq
  have hlo := lo.isLt
  simp only [lowByte, BitVec.extractLsb'_toNat, wordOfBytes_toNat, Nat.shiftRight_zero]
  omega

theorem highByte_wordOfBytes (lo hi : Byte) : highByte (wordOfBytes lo hi) = hi := by
  apply BitVec.eq_of_toNat_eq
  have hlo := lo.isLt
  have hhi := hi.isLt
  simp only [highByte, BitVec.extractLsb'_toNat, wordOfBytes_toNat, Nat.shiftRight_eq_div_pow]
  omega

theorem wordOfBytes_bytes (w : Word) : wordOfBytes (lowByte w) (highByte w) = w := by
  apply BitVec.eq_of_toNat_eq
  have hw := w.isLt
  simp only [wordOfBytes_toNat, lowByte, highByte, BitVec.extractLsb'_toNat,
    Nat.shiftRight_eq_div_pow]
  omega

end Sys2Proof.Machine
end

