-- ==== Sys2Proof/Laws/State.lean ====
section
/-! SUPPORT. One lemma per field per state update: what each update writes and what it leaves alone. -/

namespace Sys2Proof.Machine

variable (s : State)

/-! ### State.writeReg -/

@[simp] theorem State.writeReg_mem (i : RegIndex) (v : Word) : (s.writeReg i v).mem = s.mem := rfl
@[simp] theorem State.writeReg_regs (i : RegIndex) (v : Word) : (s.writeReg i v).regs = s.regs.set i v := rfl
@[simp] theorem State.writeReg_pc (i : RegIndex) (v : Word) : (s.writeReg i v).pc = s.pc := rfl
@[simp] theorem State.writeReg_stack (i : RegIndex) (v : Word) : (s.writeReg i v).stack = s.stack := rfl
@[simp] theorem State.writeReg_run (i : RegIndex) (v : Word) : (s.writeReg i v).run = s.run := rfl
@[simp] theorem State.writeReg_faultPc (i : RegIndex) (v : Word) : (s.writeReg i v).faultPc = s.faultPc := rfl
@[simp] theorem State.writeReg_faultInfo (i : RegIndex) (v : Word) : (s.writeReg i v).faultInfo = s.faultInfo := rfl
@[simp] theorem State.writeReg_waitIn (i : RegIndex) (v : Word) : (s.writeReg i v).waitIn = s.waitIn := rfl
@[simp] theorem State.writeReg_output (i : RegIndex) (v : Word) : (s.writeReg i v).output = s.output := rfl
@[simp] theorem State.writeReg_input (i : RegIndex) (v : Word) : (s.writeReg i v).input = s.input := rfl
@[simp] theorem State.writeReg_config (i : RegIndex) (v : Word) : (s.writeReg i v).config = s.config := rfl

/-! ### State.storeWord -/

@[simp] theorem State.storeWord_mem (a : Addr) (v : Word) : (s.storeWord a v).mem = s.mem.writeWord a v := rfl
@[simp] theorem State.storeWord_regs (a : Addr) (v : Word) : (s.storeWord a v).regs = s.regs := rfl
@[simp] theorem State.storeWord_pc (a : Addr) (v : Word) : (s.storeWord a v).pc = s.pc := rfl
@[simp] theorem State.storeWord_stack (a : Addr) (v : Word) : (s.storeWord a v).stack = s.stack := rfl
@[simp] theorem State.storeWord_run (a : Addr) (v : Word) : (s.storeWord a v).run = s.run := rfl
@[simp] theorem State.storeWord_faultPc (a : Addr) (v : Word) : (s.storeWord a v).faultPc = s.faultPc := rfl
@[simp] theorem State.storeWord_faultInfo (a : Addr) (v : Word) : (s.storeWord a v).faultInfo = s.faultInfo := rfl
@[simp] theorem State.storeWord_waitIn (a : Addr) (v : Word) : (s.storeWord a v).waitIn = s.waitIn := rfl
@[simp] theorem State.storeWord_output (a : Addr) (v : Word) : (s.storeWord a v).output = s.output := rfl
@[simp] theorem State.storeWord_input (a : Addr) (v : Word) : (s.storeWord a v).input = s.input := rfl
@[simp] theorem State.storeWord_config (a : Addr) (v : Word) : (s.storeWord a v).config = s.config := rfl

/-! ### State.appendTop -/

@[simp] theorem State.appendTop_mem (v : Word) : (s.appendTop v).mem = s.mem := rfl
@[simp] theorem State.appendTop_regs (v : Word) : (s.appendTop v).regs = s.regs := rfl
@[simp] theorem State.appendTop_pc (v : Word) : (s.appendTop v).pc = s.pc := rfl
@[simp] theorem State.appendTop_stack (v : Word) : (s.appendTop v).stack = s.stack ++ [v] := rfl
@[simp] theorem State.appendTop_run (v : Word) : (s.appendTop v).run = s.run := rfl
@[simp] theorem State.appendTop_faultPc (v : Word) : (s.appendTop v).faultPc = s.faultPc := rfl
@[simp] theorem State.appendTop_faultInfo (v : Word) : (s.appendTop v).faultInfo = s.faultInfo := rfl
@[simp] theorem State.appendTop_waitIn (v : Word) : (s.appendTop v).waitIn = s.waitIn := rfl
@[simp] theorem State.appendTop_output (v : Word) : (s.appendTop v).output = s.output := rfl
@[simp] theorem State.appendTop_input (v : Word) : (s.appendTop v).input = s.input := rfl
@[simp] theorem State.appendTop_config (v : Word) : (s.appendTop v).config = s.config := rfl

/-! ### State.dropTop -/

@[simp] theorem State.dropTop_mem : s.dropTop.mem = s.mem := rfl
@[simp] theorem State.dropTop_regs : s.dropTop.regs = s.regs := rfl
@[simp] theorem State.dropTop_pc : s.dropTop.pc = s.pc := rfl
@[simp] theorem State.dropTop_stack : s.dropTop.stack = s.stack.dropLast := rfl
@[simp] theorem State.dropTop_run : s.dropTop.run = s.run := rfl
@[simp] theorem State.dropTop_faultPc : s.dropTop.faultPc = s.faultPc := rfl
@[simp] theorem State.dropTop_faultInfo : s.dropTop.faultInfo = s.faultInfo := rfl
@[simp] theorem State.dropTop_waitIn : s.dropTop.waitIn = s.waitIn := rfl
@[simp] theorem State.dropTop_output : s.dropTop.output = s.output := rfl
@[simp] theorem State.dropTop_input : s.dropTop.input = s.input := rfl
@[simp] theorem State.dropTop_config : s.dropTop.config = s.config := rfl

/-! ### State.emit -/

@[simp] theorem State.emit_mem (c : Byte) : (s.emit c).mem = s.mem := rfl
@[simp] theorem State.emit_regs (c : Byte) : (s.emit c).regs = s.regs := rfl
@[simp] theorem State.emit_pc (c : Byte) : (s.emit c).pc = s.pc := rfl
@[simp] theorem State.emit_stack (c : Byte) : (s.emit c).stack = s.stack := rfl
@[simp] theorem State.emit_run (c : Byte) : (s.emit c).run = s.run := rfl
@[simp] theorem State.emit_faultPc (c : Byte) : (s.emit c).faultPc = s.faultPc := rfl
@[simp] theorem State.emit_faultInfo (c : Byte) : (s.emit c).faultInfo = s.faultInfo := rfl
@[simp] theorem State.emit_waitIn (c : Byte) : (s.emit c).waitIn = s.waitIn := rfl
@[simp] theorem State.emit_output (c : Byte) : (s.emit c).output = s.output ++ [c] := rfl
@[simp] theorem State.emit_input (c : Byte) : (s.emit c).input = s.input := rfl
@[simp] theorem State.emit_config (c : Byte) : (s.emit c).config = s.config := rfl

/-! ### State.dropReply -/

@[simp] theorem State.dropReply_mem : s.dropReply.mem = s.mem := rfl
@[simp] theorem State.dropReply_regs : s.dropReply.regs = s.regs := rfl
@[simp] theorem State.dropReply_pc : s.dropReply.pc = s.pc := rfl
@[simp] theorem State.dropReply_stack : s.dropReply.stack = s.stack := rfl
@[simp] theorem State.dropReply_run : s.dropReply.run = s.run := rfl
@[simp] theorem State.dropReply_faultPc : s.dropReply.faultPc = s.faultPc := rfl
@[simp] theorem State.dropReply_faultInfo : s.dropReply.faultInfo = s.faultInfo := rfl
@[simp] theorem State.dropReply_waitIn : s.dropReply.waitIn = s.waitIn := rfl
@[simp] theorem State.dropReply_output : s.dropReply.output = s.output := rfl
@[simp] theorem State.dropReply_input : s.dropReply.input = s.input.tail := rfl
@[simp] theorem State.dropReply_config : s.dropReply.config = s.config := rfl

/-! ### State.complete -/

@[simp] theorem State.complete_mem (next : Word) : (s.complete next).mem = s.mem := rfl
@[simp] theorem State.complete_regs (next : Word) : (s.complete next).regs = s.regs := rfl
@[simp] theorem State.complete_pc (next : Word) : (s.complete next).pc = next := rfl
@[simp] theorem State.complete_stack (next : Word) : (s.complete next).stack = s.stack := rfl
@[simp] theorem State.complete_run (next : Word) : (s.complete next).run = s.run := rfl
@[simp] theorem State.complete_faultPc (next : Word) : (s.complete next).faultPc = s.faultPc := rfl
@[simp] theorem State.complete_faultInfo (next : Word) : (s.complete next).faultInfo = s.faultInfo := rfl
@[simp] theorem State.complete_waitIn (next : Word) : (s.complete next).waitIn = false := rfl
@[simp] theorem State.complete_output (next : Word) : (s.complete next).output = s.output := rfl
@[simp] theorem State.complete_input (next : Word) : (s.complete next).input = s.input := rfl
@[simp] theorem State.complete_config (next : Word) : (s.complete next).config = s.config := rfl

/-! ### State.hold -/

@[simp] theorem State.hold_mem : s.hold.mem = s.mem := rfl
@[simp] theorem State.hold_regs : s.hold.regs = s.regs := rfl
@[simp] theorem State.hold_pc : s.hold.pc = s.pc := rfl
@[simp] theorem State.hold_stack : s.hold.stack = s.stack := rfl
@[simp] theorem State.hold_run : s.hold.run = s.run := rfl
@[simp] theorem State.hold_faultPc : s.hold.faultPc = s.faultPc := rfl
@[simp] theorem State.hold_faultInfo : s.hold.faultInfo = s.faultInfo := rfl
@[simp] theorem State.hold_waitIn : s.hold.waitIn = true := rfl
@[simp] theorem State.hold_output : s.hold.output = s.output := rfl
@[simp] theorem State.hold_input : s.hold.input = s.input := rfl
@[simp] theorem State.hold_config : s.hold.config = s.config := rfl

/-! ### State.halt -/

@[simp] theorem State.halt_mem : s.halt.mem = s.mem := rfl
@[simp] theorem State.halt_regs : s.halt.regs = s.regs := rfl
@[simp] theorem State.halt_pc : s.halt.pc = s.pc := rfl
@[simp] theorem State.halt_stack : s.halt.stack = s.stack := rfl
@[simp] theorem State.halt_run : s.halt.run = .halted := rfl
@[simp] theorem State.halt_faultPc : s.halt.faultPc = s.faultPc := rfl
@[simp] theorem State.halt_faultInfo : s.halt.faultInfo = s.faultInfo := rfl
@[simp] theorem State.halt_waitIn : s.halt.waitIn = false := rfl
@[simp] theorem State.halt_output : s.halt.output = s.output := rfl
@[simp] theorem State.halt_input : s.halt.input = s.input := rfl
@[simp] theorem State.halt_config : s.halt.config = s.config := rfl

/-! ### State.takeFault -/

@[simp] theorem State.takeFault_mem (e : Raise) : (s.takeFault e).mem = s.mem := rfl
@[simp] theorem State.takeFault_regs (e : Raise) : (s.takeFault e).regs = s.regs := rfl
@[simp] theorem State.takeFault_pc (e : Raise) : (s.takeFault e).pc = s.pc := rfl
@[simp] theorem State.takeFault_stack (e : Raise) : (s.takeFault e).stack = s.stack := rfl
@[simp] theorem State.takeFault_run (e : Raise) : (s.takeFault e).run = .faulted e.kind := rfl
@[simp] theorem State.takeFault_faultPc (e : Raise) : (s.takeFault e).faultPc = s.pc := rfl
@[simp] theorem State.takeFault_faultInfo (e : Raise) : (s.takeFault e).faultInfo = e.info := rfl
@[simp] theorem State.takeFault_waitIn (e : Raise) : (s.takeFault e).waitIn = false := rfl
@[simp] theorem State.takeFault_output (e : Raise) : (s.takeFault e).output = s.output := rfl
@[simp] theorem State.takeFault_input (e : Raise) : (s.takeFault e).input = s.input := rfl
@[simp] theorem State.takeFault_config (e : Raise) : (s.takeFault e).config = s.config := rfl

/-! ### State.supply -/

@[simp] theorem State.supply_mem (r : InputReply) : (s.supply r).mem = s.mem := rfl
@[simp] theorem State.supply_regs (r : InputReply) : (s.supply r).regs = s.regs := rfl
@[simp] theorem State.supply_pc (r : InputReply) : (s.supply r).pc = s.pc := rfl
@[simp] theorem State.supply_stack (r : InputReply) : (s.supply r).stack = s.stack := rfl
@[simp] theorem State.supply_run (r : InputReply) : (s.supply r).run = s.run := rfl
@[simp] theorem State.supply_faultPc (r : InputReply) : (s.supply r).faultPc = s.faultPc := rfl
@[simp] theorem State.supply_faultInfo (r : InputReply) : (s.supply r).faultInfo = s.faultInfo := rfl
@[simp] theorem State.supply_waitIn (r : InputReply) : (s.supply r).waitIn = s.waitIn := rfl
@[simp] theorem State.supply_output (r : InputReply) : (s.supply r).output = s.output := rfl
@[simp] theorem State.supply_input (r : InputReply) : (s.supply r).input = s.input ++ [r] := rfl
@[simp] theorem State.supply_config (r : InputReply) : (s.supply r).config = s.config := rfl

end Sys2Proof.Machine
end

