-- ==== Sys2Proof/Laws/Ops.lean ====
section
/-! SUPPORT. One lemma per shared operation, saying everything it can do. -/

namespace Sys2Proof.Machine

/-! ### Computations that may raise -/

/-- A sequence succeeds when both parts do. -/
theorem bind_eq_ok {α β : Type} {x : Attempt α} {f : α → Attempt β} {b : β} :
    (x >>= f) = .ok b ↔ ∃ a, x = .ok a ∧ f a = .ok b := by
  cases x <;> simp [bind, Except.bind]

/-- A sequence raises what its first part raises, or else what its second part raises. -/
theorem bind_eq_error {α β : Type} {x : Attempt α} {f : α → Attempt β} {e : Raise} :
    (x >>= f) = .error e ↔ x = .error e ∨ ∃ a, x = .ok a ∧ f a = .error e := by
  cases x <;> simp [bind, Except.bind]

@[simp] theorem ok_bind {α β : Type} (a : α) (f : α → Attempt β) : ((.ok a : Attempt α) >>= f) = f a := rfl

@[simp] theorem error_bind {α β : Type} (e : Raise) (f : α → Attempt β) :
    ((.error e : Attempt α) >>= f) = .error e := rfl

@[simp] theorem raisedBy_ok {α : Type} (a : α) : raisedBy (.ok a) = none := rfl

@[simp] theorem raisedBy_error {α : Type} (e : Raise) : raisedBy (.error e : Attempt α) = some e := rfl

theorem raisedBy_eq_some {α : Type} {r : Attempt α} {e : Raise} : raisedBy r = some e ↔ r = .error e := by
  cases r <;> simp

theorem raisedBy_eq_none {α : Type} {r : Attempt α} : raisedBy r = none ↔ ∃ a, r = .ok a := by
  cases r <;> simp

/-! ### The end of a step -/

@[simp] theorem commit_ok (s t : State) : commit s (.ok t) = .next t := rfl

@[simp] theorem commit_error (s : State) (e : Raise) : commit s (.error e) = .next (s.takeFault e) := rfl

/-- A step that ends, ends with the instruction complete or with its fault taken. -/
theorem commit_cases {s t : State} {r : Attempt State} (h : commit s r = .next t) :
    r = .ok t ∨ ∃ e, r = .error e ∧ t = s.takeFault e := by
  cases r with
  | ok u => exact .inl (by simpa using h)
  | error e => exact .inr ⟨e, rfl, by simpa using h.symm⟩

/-! ### Addresses and targets -/

/-- Only 0..32767 is an address. -/
theorem addressOf_eq_some {n : Nat} {a : Addr} : addressOf n = some a ↔ a.val = n := by
  unfold addressOf
  split
  · rw [Option.some_inj, Fin.ext_iff]
    exact eq_comm
  · have := a.isLt
    simp only [reduceCtorEq, false_iff]
    omega

theorem addressOf_eq_none {n : Nat} : addressOf n = none ↔ 32768 ≤ n := by
  unfold addressOf
  split
  · simp only [reduceCtorEq, false_iff]
    omega
  · simp only [true_iff]
    omega

@[simp] theorem addressOf_val (a : Addr) : addressOf a.val = some a := addressOf_eq_some.mpr rfl

theorem checkTarget_eq_ok {t u : Word} : checkTarget t = .ok u ↔ t.toNat < 32768 ∧ u = t := by
  unfold checkTarget
  split
  · rename_i h
    simp [h, eq_comm]
  · rename_i h
    simp [h]

theorem checkTarget_eq_error {t : Word} {e : Raise} :
    checkTarget t = .error e ↔ 32768 ≤ t.toNat ∧ e = ⟨.invalidJumpTarget, t⟩ := by
  unfold checkTarget
  split
  · simp only [reduceCtorEq, false_iff, not_and]
    omega
  · simp only [Except.error.injEq, eq_comm (a := e)]
    exact ⟨fun h => ⟨by omega, h⟩, And.right⟩

theorem fetchWord_eq_ok {s : State} {n : Nat} {w : Word} :
    s.fetchWord n = .ok w ↔ ∃ a : Addr, a.val = n ∧ s.mem.readWord a = w := by
  unfold State.fetchWord
  split
  · rename_i a ha
    rw [addressOf_eq_some] at ha
    subst ha
    simp [← Fin.ext_iff]
  · rename_i hn
    rw [addressOf_eq_none] at hn
    simp only [reduceCtorEq, false_iff, not_exists, not_and]
    intro a
    have := a.isLt
    omega

theorem fetchWord_eq_error {s : State} {n : Nat} {e : Raise} :
    s.fetchWord n = .error e ↔ 32768 ≤ n ∧ e = ⟨.addressOutOfRange, BitVec.ofNat 16 n⟩ := by
  unfold State.fetchWord
  split
  · rename_i a ha
    rw [addressOf_eq_some] at ha
    have := a.isLt
    simp only [reduceCtorEq, false_iff, not_and]
    omega
  · rename_i hn
    rw [addressOf_eq_none] at hn
    simp [hn, eq_comm]

/-! ### The stack -/

theorem stackFull_eq_true {s : State} :
    s.stackFull = true ↔ ∃ n, s.config.stackDepthMax = some n ∧ n ≤ s.stack.length := by
  unfold State.stackFull
  split <;> simp_all

theorem stackFull_eq_false {s : State} :
    s.stackFull = false ↔ ∀ n, s.config.stackDepthMax = some n → s.stack.length < n := by
  unfold State.stackFull
  split <;> simp_all

theorem push_eq_ok {s t : State} {v : Word} :
    s.push v = .ok t ↔ s.stackFull = false ∧ t = s.appendTop v := by
  unfold State.push
  split
  · rename_i h
    simp [h]
  · rename_i h
    simp only [Except.ok.injEq, eq_false_of_ne_true h, true_and]
    exact eq_comm

theorem push_eq_error {s : State} {v : Word} {e : Raise} :
    s.push v = .error e ↔ s.stackFull = true ∧ e = ⟨.stackOverflow, 0⟩ := by
  unfold State.push
  split
  · rename_i h
    simp only [Except.error.injEq, h, true_and]
    exact eq_comm
  · rename_i h
    simp [h]

theorem top_eq_ok {s : State} {v : Word} : s.top = .ok v ↔ s.stack = s.stack.dropLast ++ [v] := by
  unfold State.top
  rcases s.stack.eq_nil_or_concat with h | ⟨l, w, h⟩
  · simp [h]
  · simp [h]

theorem top_eq_error {s : State} {e : Raise} :
    s.top = .error e ↔ s.stack = [] ∧ e = ⟨.stackUnderflow, 0⟩ := by
  unfold State.top
  rcases s.stack.eq_nil_or_concat with h | ⟨l, w, h⟩
  · simp [h, eq_comm]
  · simp [h]

/-! ### Registers -/

/-- A written register reads as the value written, and every other one as before. -/
theorem readReg_writeReg (s : State) (i j : RegIndex) (v : Word) :
    (s.writeReg i v).readReg j = if i = j then v else s.readReg j := by
  simp only [State.readReg, State.writeReg, Fin.getElem_fin, Vector.getElem_set, Fin.ext_iff]

end Sys2Proof.Machine
end

