-- ==== Sys2Proof/Laws/Operands.lean ====
section
/-! SUPPORT. What each operand resolution gives (spec/30_encoding.md R86-R88). -/

namespace Sys2Proof.Machine

@[simp] theorem destination_register (i : RegIndex) : destination (.register i) = .ok i := rfl

@[simp] theorem value_register (s : State) (i : RegIndex) : value s (.register i) = .ok (s.readReg i) := rfl

/-- A destination resolves exactly when it is a register. -/
theorem destination_eq_ok {o : Operand} {i : RegIndex} : destination o = .ok i ↔ o = .register i := by
  cases o <;> simp [destination]

/-- A destination that does not resolve raises InvalidDestination with its raw word. -/
theorem destination_eq_error {o : Operand} {e : Raise} :
    destination o = .error e ↔ (∀ i, o ≠ .register i) ∧ e = ⟨.invalidDestination, o.toWord⟩ := by
  cases o <;> simp [destination, Operand.toWord, eq_comm]

/-- A value operand that does not resolve raises InvalidOperand with its raw word. -/
theorem value_eq_error {s : State} {o : Operand} {e : Raise} :
    value s o = .error e ↔ ∃ w, o = .invalid w ∧ e = ⟨.invalidOperand, w⟩ := by
  cases o <;> simp [value, eq_comm]

theorem checkAddress_eq_ok {v : Word} {a : Addr} : checkAddress v = .ok a ↔ a.val = v.toNat := by
  unfold checkAddress
  rw [← addressOf_eq_some]
  cases addressOf v.toNat <;> simp

theorem checkAddress_eq_error {v : Word} {e : Raise} :
    checkAddress v = .error e ↔ 32768 ≤ v.toNat ∧ e = ⟨.invalidMemoryAddress, v⟩ := by
  unfold checkAddress
  rw [← addressOf_eq_none]
  cases addressOf v.toNat <;> simp [eq_comm]

/-- A memory address resolves when its value does and is an address. -/
theorem memAddress_eq_ok {s : State} {o : Operand} {a : Addr} :
    memAddress s o = .ok a ↔ ∃ v, value s o = .ok v ∧ a.val = v.toNat := by
  rw [memAddress, bind_eq_ok]
  exact exists_congr fun v => and_congr_right fun _ => checkAddress_eq_ok

/-- InvalidOperand comes before InvalidMemoryAddress (R206). -/
theorem memAddress_eq_error {s : State} {o : Operand} {e : Raise} :
    memAddress s o = .error e ↔
      value s o = .error e ∨
        ∃ v, value s o = .ok v ∧ 32768 ≤ v.toNat ∧ e = ⟨.invalidMemoryAddress, v⟩ := by
  rw [memAddress, bind_eq_error]
  exact or_congr_right (exists_congr fun v => and_congr_right fun _ => checkAddress_eq_error)

/-- Operands resolve from registers alone, so a state with the same registers resolves them alike. -/
theorem value_congr {s t : State} (h : s.regs = t.regs) (o : Operand) : value s o = value t o := by
  cases o <;> simp [value, State.readReg, h]

theorem memAddress_congr {s t : State} (h : s.regs = t.regs) (o : Operand) :
    memAddress s o = memAddress t o := by
  simp [memAddress, value_congr h]

theorem operandFault_congr {s t : State} (h : s.regs = t.regs) (k : OperandKind) (o : Operand) :
    operandFault s k o = operandFault t k o := by
  cases k <;> simp [operandFault, value_congr h, memAddress_congr h]

theorem firstOperandFault_congr {s t : State} (h : s.regs = t.regs) (ks : List OperandKind)
    (os : List Operand) : firstOperandFault s ks os = firstOperandFault t ks os := by
  induction ks generalizing os with
  | nil => cases os <;> rfl
  | cons k ks ih =>
    cases os with
    | nil => rfl
    | cons o os => simp [firstOperandFault, operandFault_congr h, ih]

end Sys2Proof.Machine
end

