-- ==== Sys2Proof/Laws/Alu.lean ====
section
/-! SUPPORT. The arithmetic and logic results, and the three-operand form. -/

namespace Sys2Proof.Machine

theorem clamp15_toNat (n : Nat) : (clamp15 n).toNat = n % 32768 := by
  simp only [clamp15, BitVec.toNat_ofNat]
  omega

theorem clamp15_lt (n : Nat) : (clamp15 n).toNat < 32768 := by
  rw [clamp15_toNat]
  omega

/-- The complement, as a number (R157). -/
theorem aluNot_toNat (x : Word) : (aluNot x).toNat = 32767 - x.toNat % 32768 := by
  have hx := x.isLt
  have h : (aluNot x).toNat = (65535 - x.toNat) % 2 ^ 15 := by
    rw [← Nat.and_two_pow_sub_one_eq_mod]
    simp only [aluNot, BitVec.toNat_and, BitVec.toNat_not]
    rfl
  omega

/-- The remainder is computed exactly when the divisor is not 0. -/
theorem aluMod_eq_ok {x y r : Word} : aluMod x y = .ok r ↔ y ≠ 0 ∧ r = clamp15 (x.toNat % y.toNat) := by
  unfold aluMod
  split
  · rename_i h
    simp [h]
  · rename_i h
    simp only [Except.ok.injEq, ne_eq, h, not_false_eq_true, true_and]
    exact eq_comm

theorem aluMod_eq_error {x y : Word} {e : Raise} : aluMod x y = .error e ↔ y = 0 ∧ e = ⟨.divideByZero, 0⟩ := by
  unfold aluMod
  split
  · rename_i h
    simp only [Except.error.injEq, h, true_and]
    exact eq_comm
  · rename_i h
    simp only [reduceCtorEq, false_iff, not_and]
    exact fun hy => absurd hy h

/-- The three-operand form completes when a, b, c resolve and the computation gives a result. -/
theorem threeOperand_eq_ok {f : Word → Word → Attempt Word} {a b c : Operand} {s t : State} :
    threeOperand f a b c s = .ok t ↔
      ∃ i x y r, destination a = .ok i ∧ value s b = .ok x ∧ value s c = .ok y ∧ f x y = .ok r ∧
        t = (s.writeReg i r).complete (s.pc + 4) := by
  simp only [threeOperand, bind_eq_ok, Except.ok.injEq]
  constructor
  · rintro ⟨i, hi, x, hx, y, hy, r, hr, rfl⟩
    exact ⟨i, x, y, r, hi, hx, hy, hr, rfl⟩
  · rintro ⟨i, x, y, r, hi, hx, hy, hr, rfl⟩
    exact ⟨i, hi, x, hx, y, hy, r, hr, rfl⟩

/-- The three-operand form raises the first of: a, b, c, the computation. -/
theorem threeOperand_eq_error {f : Word → Word → Attempt Word} {a b c : Operand} {s : State} {e : Raise} :
    threeOperand f a b c s = .error e ↔
      destination a = .error e ∨
      ∃ i, destination a = .ok i ∧ (value s b = .error e ∨
        ∃ x, value s b = .ok x ∧ (value s c = .error e ∨
          ∃ y, value s c = .ok y ∧ f x y = .error e)) := by
  simp [threeOperand, bind_eq_error]

end Sys2Proof.Machine
end

