-- ==== Sys2Proof/Laws/Decode.lean ====
section
/-! SUPPORT. Small facts of the decoder and the encoder. -/

namespace Sys2Proof

theorem Operand.ofWord_literal {w : Word} (h : w.toNat < 32768) :
    Operand.ofWord w = .literal (w.setWidth 15) := by
  simp [Operand.ofWord, h]

theorem Operand.ofWord_register {w : Word} (i : RegIndex) (h : w.toNat = 32768 + i.val) :
    Operand.ofWord w = .register i := by
  have hi := i.isLt
  have h1 : ¬ w.toNat < 32768 := by omega
  have h2 : w.toNat < 32776 := by omega
  simp only [Operand.ofWord, h1, h2, dite_true, if_false, Operand.register.injEq, Fin.ext_iff]
  omega

theorem Operand.ofWord_invalid {w : Word} (h : 32776 ≤ w.toNat) : Operand.ofWord w = .invalid w := by
  have h1 : ¬ w.toNat < 32768 := by omega
  have h2 : ¬ w.toNat < 32776 := by omega
  simp [Operand.ofWord, h1, h2]

/-- Every operand word is of exactly one of the three classes. -/
theorem Operand.ofWord_cases (w : Word) :
    (w.toNat < 32768 ∧ Operand.ofWord w = .literal (w.setWidth 15)) ∨
    (∃ i : RegIndex, w.toNat = 32768 + i.val ∧ Operand.ofWord w = .register i) ∨
    (32776 ≤ w.toNat ∧ Operand.ofWord w = .invalid w) := by
  by_cases h1 : w.toNat < 32768
  · exact .inl ⟨h1, Operand.ofWord_literal h1⟩
  · by_cases h2 : w.toNat < 32776
    · have h : w.toNat = 32768 + (⟨w.toNat - 32768, by omega⟩ : RegIndex).val := by
        show w.toNat = 32768 + (w.toNat - 32768)
        omega
      exact .inr (.inl ⟨_, h, Operand.ofWord_register _ h⟩)
    · exact .inr (.inr ⟨by omega, Operand.ofWord_invalid (by omega)⟩)

/-- Reading an operand word and writing it back gives the word. -/
theorem Operand.toWord_ofWord (w : Word) : (Operand.ofWord w).toWord = w := by
  apply BitVec.eq_of_toNat_eq
  rcases Operand.ofWord_cases w with ⟨h, e⟩ | ⟨i, h, e⟩ | ⟨_, e⟩ <;> rw [e]
  · simp only [Operand.toWord, BitVec.toNat_setWidth]
    omega
  · have := i.isLt
    simp only [Operand.toWord, BitVec.toNat_ofNat]
    omega
  · rfl

/-- An operand word reads as a well-formed operand. -/
theorem Operand.wf_ofWord (w : Word) : (Operand.ofWord w).wf = true := by
  rcases Operand.ofWord_cases w with ⟨_, e⟩ | ⟨_, _, e⟩ | ⟨h, e⟩ <;> rw [e]
  · rfl
  · rfl
  · simpa [Operand.wf] using h

/-- Writing a well-formed operand and reading the word gives the operand. -/
theorem Operand.ofWord_toWord {o : Operand} (h : o.wf = true) : Operand.ofWord o.toWord = o := by
  cases o with
  | literal v =>
    have hv := v.isLt
    have hw : (v.setWidth 16).toNat = v.toNat := by
      simp only [BitVec.toNat_setWidth]
      omega
    rw [Operand.toWord, Operand.ofWord_literal (by omega)]
    simp
  | register i =>
    have hi := i.isLt
    exact Operand.ofWord_register i (by simp only [Operand.toWord, BitVec.toNat_ofNat]; omega)
  | invalid w => exact Operand.ofWord_invalid (w := w) (by simpa [Operand.wf] using h)

/-- The operand kinds of an instruction are as many as its operands. -/
theorem operandKinds_length (i : Instr) : (operandKinds i.opcode).length = i.operands.length := by
  cases i <;> rfl

/-- An instruction is 1 to 4 words (R80). -/
theorem Instr.length_le (i : Instr) : i.length ≤ 4 := by
  cases i <;> simp [Instr.length, Instr.operands]

theorem encode_length (i : Instr) : (encode i).length = i.length := by
  simp [encode, Instr.length, Nat.add_comm]

end Sys2Proof
end

