-- ==== Sys2Proof/Laws/Exec.lean ====
section
/-! SUPPORT. What executing an instruction can do, said once: it completes, with the effect listed here, or it takes the
fault it raises. -/

namespace Sys2Proof.Machine

/-- The states an instruction can complete in, or, for an `in` without an answer, hold in. -/
def Completes (i : Instr) (s t : State) : Prop :=
  match i with
  | .halt => t = s.halt
  | .set a b => ∃ r v, a = .register r ∧ value s b = .ok v ∧ t = (s.writeReg r v).complete (s.pc + 3)
  | .push a => ∃ v, value s a = .ok v ∧ s.stackFull = false ∧ t = (s.appendTop v).complete (s.pc + 2)
  | .pop a => ∃ r v, a = .register r ∧ s.stack = s.stack.dropLast ++ [v] ∧
      t = (s.dropTop.writeReg r v).complete (s.pc + 2)
  | .eq a b c => ∃ r x y, a = .register r ∧ value s b = .ok x ∧ value s c = .ok y ∧
      t = (s.writeReg r (aluEq x y)).complete (s.pc + 4)
  | .gt a b c => ∃ r x y, a = .register r ∧ value s b = .ok x ∧ value s c = .ok y ∧
      t = (s.writeReg r (aluGt x y)).complete (s.pc + 4)
  | .jmp a => ∃ v, value s a = .ok v ∧ v.toNat < 32768 ∧ t = s.complete v
  | .jt a b => ∃ x v, value s a = .ok x ∧ value s b = .ok v ∧
      ((x ≠ 0 ∧ v.toNat < 32768 ∧ t = s.complete v) ∨ (x = 0 ∧ t = s.complete (s.pc + 3)))
  | .jf a b => ∃ x v, value s a = .ok x ∧ value s b = .ok v ∧
      ((x = 0 ∧ v.toNat < 32768 ∧ t = s.complete v) ∨ (x ≠ 0 ∧ t = s.complete (s.pc + 3)))
  | .add a b c => ∃ r x y, a = .register r ∧ value s b = .ok x ∧ value s c = .ok y ∧
      t = (s.writeReg r (aluAdd x y)).complete (s.pc + 4)
  | .mult a b c => ∃ r x y, a = .register r ∧ value s b = .ok x ∧ value s c = .ok y ∧
      t = (s.writeReg r (aluMult x y)).complete (s.pc + 4)
  | .mod a b c => ∃ r x y, a = .register r ∧ value s b = .ok x ∧ value s c = .ok y ∧ y ≠ 0 ∧
      t = (s.writeReg r (clamp15 (x.toNat % y.toNat))).complete (s.pc + 4)
  | .and a b c => ∃ r x y, a = .register r ∧ value s b = .ok x ∧ value s c = .ok y ∧
      t = (s.writeReg r (aluAnd x y)).complete (s.pc + 4)
  | .or a b c => ∃ r x y, a = .register r ∧ value s b = .ok x ∧ value s c = .ok y ∧
      t = (s.writeReg r (aluOr x y)).complete (s.pc + 4)
  | .not a b => ∃ r x, a = .register r ∧ value s b = .ok x ∧ t = (s.writeReg r (aluNot x)).complete (s.pc + 3)
  | .rmem a b => ∃ r addr, a = .register r ∧ memAddress s b = .ok addr ∧
      t = (s.writeReg r (s.mem.readWord addr)).complete (s.pc + 3)
  | .wmem a b => ∃ addr v, memAddress s a = .ok addr ∧ value s b = .ok v ∧
      t = (s.storeWord addr v).complete (s.pc + 3)
  | .call a => ∃ v, value s a = .ok v ∧ v.toNat < 32768 ∧ s.stackFull = false ∧
      t = (s.appendTop (s.pc + 2)).complete v
  | .ret => ∃ v, s.stack = s.stack.dropLast ++ [v] ∧ v.toNat < 32768 ∧ t = s.dropTop.complete v
  | .out a => ∃ v, value s a = .ok v ∧ t = (s.emit (lowByte v)).complete (s.pc + 2)
  | .inChar a => ∃ r, a = .register r ∧
      ((s.input = [] ∧ t = s.hold) ∨
        ∃ c rest, s.input = .char c :: rest ∧
          t = (s.dropReply.writeReg r (c.setWidth 16)).complete (s.pc + 2))
  | .noop => t = s.complete (s.pc + 1)

/-- The fault an instruction raises: that of its first operand that does not resolve, or one of its own. -/
def Raises (i : Instr) (s : State) (e : Raise) : Prop :=
  firstOperandFault s (operandKinds i.opcode) i.operands = some e ∨
  match i with
  | .push _ => s.stackFull = true ∧ e = ⟨.stackOverflow, 0⟩
  | .pop _ => s.stack = [] ∧ e = ⟨.stackUnderflow, 0⟩
  | .jmp a => ∃ v, value s a = .ok v ∧ 32768 ≤ v.toNat ∧ e = ⟨.invalidJumpTarget, v⟩
  | .jt _ b => ∃ v, value s b = .ok v ∧ 32768 ≤ v.toNat ∧ e = ⟨.invalidJumpTarget, v⟩
  | .jf _ b => ∃ v, value s b = .ok v ∧ 32768 ≤ v.toNat ∧ e = ⟨.invalidJumpTarget, v⟩
  | .mod _ _ _ => e = ⟨.divideByZero, 0⟩
  | .call a => (∃ v, value s a = .ok v ∧ 32768 ≤ v.toNat ∧ e = ⟨.invalidJumpTarget, v⟩) ∨
      (s.stackFull = true ∧ e = ⟨.stackOverflow, 0⟩)
  | .ret => (s.stack = [] ∧ e = ⟨.stackUnderflow, 0⟩) ∨
      ∃ v, 32768 ≤ v.toNat ∧ e = ⟨.invalidJumpTarget, v⟩
  | .inChar _ => e = ⟨.inputExhausted, 0⟩
  | _ => False

/-! ### The first operand fault of each format -/

theorem firstOperandFault_one {s : State} {k : OperandKind} {o : Operand} :
    firstOperandFault s [k] [o] = operandFault s k o := by
  simp only [firstOperandFault]
  cases operandFault s k o <;> rfl

theorem firstOperandFault_cons_some {s : State} {k : OperandKind} {ks : List OperandKind} {o : Operand}
    {os : List Operand} {e : Raise} (h : operandFault s k o = some e) :
    firstOperandFault s (k :: ks) (o :: os) = some e := by
  simp [firstOperandFault, h]

theorem firstOperandFault_cons_none {s : State} {k : OperandKind} {ks : List OperandKind} {o : Operand}
    {os : List Operand} (h : operandFault s k o = none) :
    firstOperandFault s (k :: ks) (o :: os) = firstOperandFault s ks os := by
  simp [firstOperandFault, h]

/-! ### The three-operand form -/

/-- A three-operand instruction completes, or raises an operand's fault or its computation's. -/
theorem threeOperand_cases {f : Word → Word → Attempt Word} {a b c : Operand} {s t : State}
    (h : commit s (threeOperand f a b c s) = .next t) :
    (∃ r x y v, a = .register r ∧ value s b = .ok x ∧ value s c = .ok y ∧ f x y = .ok v ∧
      t = (s.writeReg r v).complete (s.pc + 4)) ∨
    ∃ e, t = s.takeFault e ∧
      (firstOperandFault s [.destination, .value, .value] [a, b, c] = some e ∨ ∃ x y, f x y = .error e) := by
  rcases commit_cases h with h | ⟨e, h, ht⟩
  · obtain ⟨i, x, y, r, hi, hx, hy, hr, ht⟩ := threeOperand_eq_ok.mp h
    exact .inl ⟨i, x, y, r, destination_eq_ok.mp hi, hx, hy, hr, ht⟩
  · refine .inr ⟨e, ht, ?_⟩
    rcases threeOperand_eq_error.mp h with h | ⟨i, hi, h | ⟨x, hx, h | ⟨y, hy, h⟩⟩⟩
    · simp [firstOperandFault, operandFault, h]
    · simp [firstOperandFault, operandFault, hi, h]
    · simp [firstOperandFault, operandFault, hi, hx, h]
    · exact .inr ⟨x, y, h⟩

/-! ### Conditional jumps -/

/-- A conditional jump is taken to a checked target, falls through, or raises. -/
theorem conditionalJump_cases {taken : Word → Bool} {a b : Operand} {s t : State}
    (h : commit s (conditionalJump taken a b s) = .next t) :
    (∃ x v, value s a = .ok x ∧ value s b = .ok v ∧
      ((taken x = true ∧ v.toNat < 32768 ∧ t = s.complete v) ∨
       (taken x = false ∧ t = s.complete (s.pc + 3)))) ∨
    ∃ e, t = s.takeFault e ∧
      (firstOperandFault s [.value, .value] [a, b] = some e ∨
        ∃ v, value s b = .ok v ∧ 32768 ≤ v.toNat ∧ e = ⟨.invalidJumpTarget, v⟩) := by
  rcases commit_cases h with h | ⟨e, h, ht⟩
  · obtain ⟨x, hx, h⟩ := bind_eq_ok.mp h
    obtain ⟨v, hv, h⟩ := bind_eq_ok.mp h
    refine .inl ⟨x, v, hx, hv, ?_⟩
    cases hk : taken x with
    | true =>
      simp only [hk, if_true, bind_eq_ok, checkTarget_eq_ok, Except.ok.injEq] at h
      obtain ⟨u, ⟨hu, rfl⟩, rfl⟩ := h
      exact .inl ⟨rfl, hu, rfl⟩
    | false => exact .inr ⟨rfl, by simpa [hk, eq_comm] using h⟩
  · refine .inr ⟨e, ht, ?_⟩
    rcases bind_eq_error.mp h with h | ⟨x, hx, h⟩
    · exact .inl (by simp [firstOperandFault, operandFault, h])
    rcases bind_eq_error.mp h with h | ⟨v, hv, h⟩
    · exact .inl (by simp [firstOperandFault, operandFault, hx, h])
    refine .inr ⟨v, hv, ?_⟩
    cases hk : taken x with
    | true =>
      simp only [hk, if_true, bind_eq_error, checkTarget_eq_error, reduceCtorEq, and_false, exists_false,
        or_false] at h
      exact h
    | false => simp [hk] at h

/-! ### Every instruction -/

/-- Executing an instruction completes it or takes the fault it raises; it never ends in any other way. -/
theorem exec_cases {i : Instr} {s t : State} (h : exec i s = .next t) :
    Completes i s t ∨ ∃ e, Raises i s e ∧ t = s.takeFault e := by
  cases i with
  | halt => exact .inl (show t = s.halt by simpa [exec, execHalt, eq_comm] using h)
  | noop => exact .inl (show t = s.complete (s.pc + 1) by simpa [exec, execNoop, eq_comm] using h)
  | set a b =>
    rcases commit_cases h with h | ⟨e, h, ht⟩
    · simp only [bind_eq_ok, Except.ok.injEq, destination_eq_ok] at h
      obtain ⟨r, ha, v, hb, rfl⟩ := h
      exact .inl ⟨r, v, ha, hb, rfl⟩
    · refine .inr ⟨e, .inl ?_, ht⟩
      simp only [bind_eq_error, reduceCtorEq, and_false, exists_false, or_false] at h
      rcases h with h | ⟨r, hr, h⟩
      · simp [Instr.opcode, Instr.operands, operandKinds, firstOperandFault, operandFault, h]
      · simp [Instr.opcode, Instr.operands, operandKinds, firstOperandFault, operandFault, hr, h]
  | not a b =>
    rcases commit_cases h with h | ⟨e, h, ht⟩
    · simp only [bind_eq_ok, Except.ok.injEq, destination_eq_ok] at h
      obtain ⟨r, ha, v, hb, rfl⟩ := h
      exact .inl ⟨r, v, ha, hb, rfl⟩
    · refine .inr ⟨e, .inl ?_, ht⟩
      simp only [bind_eq_error, reduceCtorEq, and_false, exists_false, or_false] at h
      rcases h with h | ⟨r, hr, h⟩
      · simp [Instr.opcode, Instr.operands, operandKinds, firstOperandFault, operandFault, h]
      · simp [Instr.opcode, Instr.operands, operandKinds, firstOperandFault, operandFault, hr, h]
  | rmem a b =>
    rcases commit_cases h with h | ⟨e, h, ht⟩
    · simp only [bind_eq_ok, Except.ok.injEq, destination_eq_ok] at h
      obtain ⟨r, ha, v, hb, rfl⟩ := h
      exact .inl ⟨r, v, ha, hb, rfl⟩
    · refine .inr ⟨e, .inl ?_, ht⟩
      simp only [bind_eq_error, reduceCtorEq, and_false, exists_false, or_false] at h
      rcases h with h | ⟨r, hr, h⟩
      · simp [Instr.opcode, Instr.operands, operandKinds, firstOperandFault, operandFault, h]
      · simp [Instr.opcode, Instr.operands, operandKinds, firstOperandFault, operandFault, hr, h]
  | wmem a b =>
    rcases commit_cases h with h | ⟨e, h, ht⟩
    · simp only [bind_eq_ok, Except.ok.injEq] at h
      obtain ⟨addr, ha, v, hb, rfl⟩ := h
      exact .inl ⟨addr, v, ha, hb, rfl⟩
    · refine .inr ⟨e, .inl ?_, ht⟩
      simp only [bind_eq_error, reduceCtorEq, and_false, exists_false, or_false] at h
      rcases h with h | ⟨r, hr, h⟩
      · simp [Instr.opcode, Instr.operands, operandKinds, firstOperandFault, operandFault, h]
      · simp [Instr.opcode, Instr.operands, operandKinds, firstOperandFault, operandFault, hr, h]
  | push a =>
    rcases commit_cases h with h | ⟨e, h, ht⟩
    · simp only [bind_eq_ok, Except.ok.injEq, push_eq_ok] at h
      obtain ⟨v, ha, u, ⟨hf, rfl⟩, rfl⟩ := h
      exact .inl ⟨v, ha, hf, rfl⟩
    · refine .inr ⟨e, ?_, ht⟩
      simp only [bind_eq_error, reduceCtorEq, and_false, exists_false, or_false, push_eq_error] at h
      rcases h with h | ⟨v, _, h⟩
      · exact .inl (by simp [Instr.opcode, Instr.operands, operandKinds, firstOperandFault, operandFault, h])
      · exact .inr h
  | pop a =>
    rcases commit_cases h with h | ⟨e, h, ht⟩
    · simp only [bind_eq_ok, Except.ok.injEq, destination_eq_ok, top_eq_ok] at h
      obtain ⟨r, ha, v, hv, rfl⟩ := h
      exact .inl ⟨r, v, ha, hv, rfl⟩
    · refine .inr ⟨e, ?_, ht⟩
      simp only [bind_eq_error, reduceCtorEq, and_false, exists_false, or_false, top_eq_error] at h
      rcases h with h | ⟨v, _, h⟩
      · exact .inl (by simp [Instr.opcode, Instr.operands, operandKinds, firstOperandFault, operandFault, h])
      · exact .inr h
  | eq a b c =>
    rcases threeOperand_cases h with ⟨r, x, y, v, ha, hb, hc, hv, rfl⟩ | ⟨e, ht, h | ⟨x, y, h⟩⟩
    · exact .inl ⟨r, x, y, ha, hb, hc, by rw [Except.ok.inj hv]⟩
    · exact .inr ⟨e, .inl h, ht⟩
    · exact absurd h (by simp)
  | gt a b c =>
    rcases threeOperand_cases h with ⟨r, x, y, v, ha, hb, hc, hv, rfl⟩ | ⟨e, ht, h | ⟨x, y, h⟩⟩
    · exact .inl ⟨r, x, y, ha, hb, hc, by rw [Except.ok.inj hv]⟩
    · exact .inr ⟨e, .inl h, ht⟩
    · exact absurd h (by simp)
  | add a b c =>
    rcases threeOperand_cases h with ⟨r, x, y, v, ha, hb, hc, hv, rfl⟩ | ⟨e, ht, h | ⟨x, y, h⟩⟩
    · exact .inl ⟨r, x, y, ha, hb, hc, by rw [Except.ok.inj hv]⟩
    · exact .inr ⟨e, .inl h, ht⟩
    · exact absurd h (by simp)
  | mult a b c =>
    rcases threeOperand_cases h with ⟨r, x, y, v, ha, hb, hc, hv, rfl⟩ | ⟨e, ht, h | ⟨x, y, h⟩⟩
    · exact .inl ⟨r, x, y, ha, hb, hc, by rw [Except.ok.inj hv]⟩
    · exact .inr ⟨e, .inl h, ht⟩
    · exact absurd h (by simp)
  | mod a b c =>
    rcases threeOperand_cases h with ⟨r, x, y, v, ha, hb, hc, hv, rfl⟩ | ⟨e, ht, h | ⟨x, y, h⟩⟩
    · obtain ⟨hy, rfl⟩ := aluMod_eq_ok.mp hv
      exact .inl ⟨r, x, y, ha, hb, hc, hy, rfl⟩
    · exact .inr ⟨e, .inl h, ht⟩
    · exact .inr ⟨e, .inr (aluMod_eq_error.mp h).2, ht⟩
  | and a b c =>
    rcases threeOperand_cases h with ⟨r, x, y, v, ha, hb, hc, hv, rfl⟩ | ⟨e, ht, h | ⟨x, y, h⟩⟩
    · exact .inl ⟨r, x, y, ha, hb, hc, by rw [Except.ok.inj hv]⟩
    · exact .inr ⟨e, .inl h, ht⟩
    · exact absurd h (by simp)
  | or a b c =>
    rcases threeOperand_cases h with ⟨r, x, y, v, ha, hb, hc, hv, rfl⟩ | ⟨e, ht, h | ⟨x, y, h⟩⟩
    · exact .inl ⟨r, x, y, ha, hb, hc, by rw [Except.ok.inj hv]⟩
    · exact .inr ⟨e, .inl h, ht⟩
    · exact absurd h (by simp)
  | jmp a =>
    rcases commit_cases h with h | ⟨e, h, ht⟩
    · simp only [bind_eq_ok, Except.ok.injEq, checkTarget_eq_ok] at h
      obtain ⟨v, ha, u, ⟨hv, rfl⟩, rfl⟩ := h
      exact .inl ⟨u, ha, hv, rfl⟩
    · refine .inr ⟨e, ?_, ht⟩
      simp only [bind_eq_error, reduceCtorEq, and_false, exists_false, or_false, checkTarget_eq_error] at h
      rcases h with h | ⟨v, hv, h⟩
      · exact .inl (by simp [Instr.opcode, Instr.operands, operandKinds, firstOperandFault, operandFault, h])
      · exact .inr ⟨v, hv, h⟩
  | jt a b =>
    rcases conditionalJump_cases h with ⟨x, v, hx, hv, h⟩ | ⟨e, ht, h⟩
    · exact .inl ⟨x, v, hx, hv, by simpa using h⟩
    · exact .inr ⟨e, h, ht⟩
  | jf a b =>
    rcases conditionalJump_cases h with ⟨x, v, hx, hv, h⟩ | ⟨e, ht, h⟩
    · exact .inl ⟨x, v, hx, hv, by simpa using h⟩
    · exact .inr ⟨e, h, ht⟩
  | call a =>
    rcases commit_cases h with h | ⟨e, h, ht⟩
    · simp only [bind_eq_ok, Except.ok.injEq, checkTarget_eq_ok, push_eq_ok] at h
      obtain ⟨v, ha, u, ⟨hv, rfl⟩, w, ⟨hf, rfl⟩, rfl⟩ := h
      exact .inl ⟨u, ha, hv, hf, rfl⟩
    · refine .inr ⟨e, ?_, ht⟩
      simp only [bind_eq_error, reduceCtorEq, and_false, exists_false, or_false, checkTarget_eq_error,
        push_eq_error] at h
      rcases h with h | ⟨v, hv, h | ⟨u, _, h⟩⟩
      · exact .inl (by simp [Instr.opcode, Instr.operands, operandKinds, firstOperandFault, operandFault, h])
      · exact .inr (.inl ⟨v, hv, h⟩)
      · exact .inr (.inr h)
  | ret =>
    rcases commit_cases h with h | ⟨e, h, ht⟩
    · simp only [bind_eq_ok, Except.ok.injEq, checkTarget_eq_ok, top_eq_ok] at h
      obtain ⟨v, hs, u, ⟨hv, rfl⟩, rfl⟩ := h
      exact .inl ⟨u, hs, hv, rfl⟩
    · refine .inr ⟨e, .inr ?_, ht⟩
      simp only [bind_eq_error, reduceCtorEq, and_false, exists_false, or_false, checkTarget_eq_error,
        top_eq_error] at h
      rcases h with h | ⟨v, _, h⟩
      · exact .inl h
      · exact .inr ⟨v, h⟩
  | out a =>
    rcases commit_cases h with h | ⟨e, h, ht⟩
    · simp only [bind_eq_ok, Except.ok.injEq] at h
      obtain ⟨v, ha, rfl⟩ := h
      exact .inl ⟨v, ha, rfl⟩
    · refine .inr ⟨e, .inl ?_, ht⟩
      simp only [bind_eq_error, reduceCtorEq, and_false, exists_false, or_false] at h
      simp [Instr.opcode, Instr.operands, operandKinds, firstOperandFault, operandFault, h]
  | inChar a =>
    rcases commit_cases h with h | ⟨e, h, ht⟩
    · obtain ⟨r, hr, h⟩ := bind_eq_ok.mp h
      refine .inl ⟨r, destination_eq_ok.mp hr, ?_⟩
      rcases hi : s.input with _ | ⟨⟨c⟩ | _, rest⟩
      · exact .inl ⟨rfl, by simpa [hi, eq_comm] using h⟩
      · exact .inr ⟨c, rest, rfl, by simpa [hi, eq_comm] using h⟩
      · simp [hi] at h
    · refine .inr ⟨e, ?_, ht⟩
      rcases bind_eq_error.mp h with h | ⟨r, hr, h⟩
      · exact .inl (by simp [Instr.opcode, Instr.operands, operandKinds, firstOperandFault, operandFault, h])
      · refine .inr ?_
        rcases hi : s.input with _ | ⟨⟨c⟩ | _, rest⟩
        · simp [hi] at h
        · simp [hi] at h
        · simpa [hi, eq_comm] using h

/-- An instruction always answers a next state. -/
theorem exec_answers (i : Instr) (s : State) : ∃ t, exec i s = .next t := by
  have hc (r : Attempt State) : ∃ t, commit s r = .next t := by
    cases r <;> exact ⟨_, rfl⟩
  cases i <;> first | exact hc _ | exact ⟨_, rfl⟩

end Sys2Proof.Machine
end

