-- ==== Sys2Proof/Laws/Fetch.lean ====
section
/-! SUPPORT. Fetching, and what a step can do. -/

namespace Sys2Proof.Machine

/-- At an address the window begins with the word there. -/
theorem window_of_address {m : Memory} {n count : Nat} {a : Addr} (h : addressOf n = some a) :
    m.window n (count + 1) = m.readWord a :: m.window (n + 1) count := by
  simp [Memory.window, h]

/-- Beyond the end of Memory the window is empty. -/
theorem window_of_no_address {m : Memory} {n count : Nat} (h : addressOf n = none) : m.window n count = [] := by
  cases count <;> simp [Memory.window, h]

/-- The window holds the words that exist: as many as asked for, or as many as are left before the end of Memory. -/
theorem window_length (m : Memory) (n count : Nat) : (m.window n count).length = min count (32768 - n) := by
  induction count generalizing n with
  | zero => simp [Memory.window]
  | succ count ih =>
    simp only [Memory.window]
    split
    · rename_i a ha
      have := addressOf_eq_some.mp ha
      have := a.isLt
      rw [List.length_cons, ih]
      omega
    · rename_i hn
      rw [addressOf_eq_none] at hn
      simp only [List.length_nil]
      omega

/-- The k-th word of the window is the word at n + k, where that is an address. -/
theorem window_getElem? (m : Memory) (n count k : Nat) (h : k < count) :
    (m.window n count)[k]? = (addressOf (n + k)).map m.readWord := by
  induction count generalizing n k with
  | zero => omega
  | succ count ih =>
    simp only [Memory.window]
    cases hn : addressOf n with
    | none =>
      have hk : addressOf (n + k) = none := by
        rw [addressOf_eq_none] at hn ⊢
        omega
      simp [hk]
    | some a =>
      cases k with
      | zero => simp [hn]
      | succ k =>
        rw [List.getElem?_cons_succ, ih (n + 1) k (by omega)]
        rw [show n + 1 + k = n + (k + 1) by omega]

/-- In a Running state a step executes what it decodes, or takes the fault of its fetch (R111). -/
theorem step_running {s : State} (h : s.run = .running) :
    step s = match decode s.fetched with
      | .ok (i, _) => exec i s
      | .error r => .next (s.takeFault (fetchFault s r)) := by
  cases hd : decode s.fetched <;> simp only [step, h, hd]

end Sys2Proof.Machine
end

