-- ==== Sys2Proof/Laws/PerInstr.lean ====
section
/-! SUPPORT. Facts of every instruction as syntax, one lemma per constructor. -/

namespace Sys2Proof.Laws.EncodedShape

/-- The encoded instruction has the length R91 gives it, at most 4 words (R80); it begins with a legal opcode word
(R92); and the table of operand kinds has one kind for each of its operands (R85). -/
def Statement (i : Instr) : Prop :=
  (encode i).length = i.length ∧ i.length ≤ 4 ∧ (encode i).head? = some i.opcode ∧
    i.opcode.toNat ≤ 21 ∧ (operandKinds i.opcode).length = i.operands.length

/-- What holds for every instruction once its opcode word is known to be legal. -/
theorem of_legal {i : Instr} (h : i.opcode.toNat ≤ 21) : Statement i :=
  ⟨encode_length i, i.length_le, rfl, h, operandKinds_length i⟩

theorem halt : Statement .halt := of_legal (show Instr.halt.opcode.toNat ≤ 21 by simp [Instr.opcode])

theorem set (a b : Operand) : Statement (.set a b) := of_legal (show (Instr.set a b).opcode.toNat ≤ 21 by simp [Instr.opcode])

theorem push (a : Operand) : Statement (.push a) := of_legal (show (Instr.push a).opcode.toNat ≤ 21 by simp [Instr.opcode])

theorem pop (a : Operand) : Statement (.pop a) := of_legal (show (Instr.pop a).opcode.toNat ≤ 21 by simp [Instr.opcode])

theorem eq (a b c : Operand) : Statement (.eq a b c) := of_legal (show (Instr.eq a b c).opcode.toNat ≤ 21 by simp [Instr.opcode])

theorem gt (a b c : Operand) : Statement (.gt a b c) := of_legal (show (Instr.gt a b c).opcode.toNat ≤ 21 by simp [Instr.opcode])

theorem jmp (a : Operand) : Statement (.jmp a) := of_legal (show (Instr.jmp a).opcode.toNat ≤ 21 by simp [Instr.opcode])

theorem jt (a b : Operand) : Statement (.jt a b) := of_legal (show (Instr.jt a b).opcode.toNat ≤ 21 by simp [Instr.opcode])

theorem jf (a b : Operand) : Statement (.jf a b) := of_legal (show (Instr.jf a b).opcode.toNat ≤ 21 by simp [Instr.opcode])

theorem add (a b c : Operand) : Statement (.add a b c) := of_legal (show (Instr.add a b c).opcode.toNat ≤ 21 by simp [Instr.opcode])

theorem mult (a b c : Operand) : Statement (.mult a b c) := of_legal (show (Instr.mult a b c).opcode.toNat ≤ 21 by simp [Instr.opcode])

theorem mod (a b c : Operand) : Statement (.mod a b c) := of_legal (show (Instr.mod a b c).opcode.toNat ≤ 21 by simp [Instr.opcode])

theorem and (a b c : Operand) : Statement (.and a b c) := of_legal (show (Instr.and a b c).opcode.toNat ≤ 21 by simp [Instr.opcode])

theorem or (a b c : Operand) : Statement (.or a b c) := of_legal (show (Instr.or a b c).opcode.toNat ≤ 21 by simp [Instr.opcode])

theorem not (a b : Operand) : Statement (.not a b) := of_legal (show (Instr.not a b).opcode.toNat ≤ 21 by simp [Instr.opcode])

theorem rmem (a b : Operand) : Statement (.rmem a b) := of_legal (show (Instr.rmem a b).opcode.toNat ≤ 21 by simp [Instr.opcode])

theorem wmem (a b : Operand) : Statement (.wmem a b) := of_legal (show (Instr.wmem a b).opcode.toNat ≤ 21 by simp [Instr.opcode])

theorem call (a : Operand) : Statement (.call a) := of_legal (show (Instr.call a).opcode.toNat ≤ 21 by simp [Instr.opcode])

theorem ret : Statement .ret := of_legal (show Instr.ret.opcode.toNat ≤ 21 by simp [Instr.opcode])

theorem out (a : Operand) : Statement (.out a) := of_legal (show (Instr.out a).opcode.toNat ≤ 21 by simp [Instr.opcode])

theorem inChar (a : Operand) : Statement (.inChar a) := of_legal (show (Instr.inChar a).opcode.toNat ≤ 21 by simp [Instr.opcode])

theorem noop : Statement .noop := of_legal (show Instr.noop.opcode.toNat ≤ 21 by simp [Instr.opcode])

end Sys2Proof.Laws.EncodedShape
end

