-- ==== Sys2Proof/Tests/Slice0.lean ====
section
/-! SUPPORT. Tests of the model against the words and vectors of spec/95_test_vectors.md (S and V numbers), the
well-formedness smoke test, and the witnesses of the statements' hypotheses. -/

namespace Sys2Proof.Tests

open Sys2Proof.Machine

/-! ### Helpers -/

/-- The reset state with an image of these words. -/
def machine (words : List Word) : State :=
  { State.reset with mem := Memory.ofImage 0 (bytesOfWords words) }

/-- The state a step answers. -/
def stepped (s : State) : Option State :=
  match step s with
  | .next t => some t
  | .fault _ => none
  | .refused _ => none

/-- One observation of the state a step answers. -/
def sees {α : Type} (s : State) (f : State → α) : Option α :=
  (stepped s).map f

/-- STATUS, FAULT_PC, FAULT_INFO and the PC after a step. -/
def faultOf (s : State) : Option (Word × Word × Word × Word) :=
  sees s fun t => (t.status, t.faultPc, t.faultInfo, t.pc)

/-- The same machine in a build whose stack holds n words. -/
def bounded (n : Nat) (s : State) : State :=
  { s with config := ⟨some n⟩ }

/-! ### Well-formedness: a term each check refuses -/

theorem test_wf_refuses_literal_as_invalid : (Operand.invalid 5).wf = false := by decide
theorem test_wf_refuses_register_as_invalid : (Operand.invalid 32775).wf = false := by decide
theorem test_wf_accepts_first_invalid : (Operand.invalid 32776).wf = true := by decide
theorem test_wf_refuses_operand_a : (Instr.push (.invalid 32768)).wf = false := by decide
theorem test_wf_refuses_operand_b : (Instr.set (.register 0) (.invalid 0)).wf = false := by decide
theorem test_wf_refuses_operand_c :
    (Instr.add (.register 0) (.literal 1) (.invalid 32767)).wf = false := by decide
theorem test_config_refuses_empty_stack : (Config.mk (some 0)).wf = false := by decide
theorem test_memory_refuses_order : ¬ Memory.wf [(2, 1), (1, 1)] := by decide
theorem test_memory_refuses_repeat : ¬ Memory.wf [(1, 1), (1, 2)] := by decide
theorem test_memory_refuses_unlisted_value : ¬ Memory.wf [(1, 0)] := by decide
theorem test_memory_refuses_beyond_the_end : ¬ Memory.wf [(65536, 1)] := by decide
theorem test_memory_accepts_both_ends : Memory.wf [(0, 1), (65535, 255)] := by decide

/-! ### Decoding: the words of each instruction as R81 and R92 lay them out -/

theorem test_decode_halt : decode [0] = .ok (.halt, []) := by decide
theorem test_decode_set : decode [1, 32770, 1234] = .ok (.set (.register 2) (.literal 1234), []) := by decide
theorem test_decode_push : decode [2, 32768] = .ok (.push (.register 0), []) := by decide
theorem test_decode_pop : decode [3, 32769] = .ok (.pop (.register 1), []) := by decide
theorem test_decode_eq :
    decode [4, 32768, 5, 6] = .ok (.eq (.register 0) (.literal 5) (.literal 6), []) := by decide
theorem test_decode_gt :
    decode [5, 32769, 32767, 0] = .ok (.gt (.register 1) (.literal 32767) (.literal 0), []) := by decide
theorem test_decode_jmp : decode [6, 10] = .ok (.jmp (.literal 10), []) := by decide
theorem test_decode_jt : decode [7, 1, 20] = .ok (.jt (.literal 1) (.literal 20), []) := by decide
theorem test_decode_jf : decode [8, 32769, 3] = .ok (.jf (.register 1) (.literal 3), []) := by decide
theorem test_decode_add :
    decode [9, 32768, 4, 5] = .ok (.add (.register 0) (.literal 4) (.literal 5), []) := by decide
theorem test_decode_mult :
    decode [10, 32769, 6, 7] = .ok (.mult (.register 1) (.literal 6) (.literal 7), []) := by decide
theorem test_decode_mod :
    decode [11, 32768, 100, 7] = .ok (.mod (.register 0) (.literal 100) (.literal 7), []) := by decide
theorem test_decode_and :
    decode [12, 32770, 12, 10] = .ok (.and (.register 2) (.literal 12) (.literal 10), []) := by decide
theorem test_decode_or :
    decode [13, 32770, 12, 10] = .ok (.or (.register 2) (.literal 12) (.literal 10), []) := by decide
theorem test_decode_not : decode [14, 32768, 21845] = .ok (.not (.register 0) (.literal 21845), []) := by decide
theorem test_decode_rmem : decode [15, 32768, 20] = .ok (.rmem (.register 0) (.literal 20), []) := by decide
theorem test_decode_wmem : decode [16, 10, 32768] = .ok (.wmem (.literal 10) (.register 0), []) := by decide
theorem test_decode_call : decode [17, 12] = .ok (.call (.literal 12), []) := by decide
theorem test_decode_ret : decode [18] = .ok (.ret, []) := by decide
theorem test_decode_out : decode [19, 32768] = .ok (.out (.register 0), []) := by decide
theorem test_decode_in : decode [20, 32771] = .ok (.inChar (.register 3), []) := by decide
theorem test_decode_noop : decode [21, 7] = .ok (.noop, [7]) := by decide
theorem test_decode_illegal : decode [22, 0, 0, 0] = .error (.illegalInstruction 22) := by decide
theorem test_decode_opcode_is_not_resolved : decode [32768] = .error (.illegalInstruction 32768) := by decide
theorem test_decode_truncated : decode [9, 32768, 4] = .error .truncated := by decide
theorem test_decode_edges :
    decode [9, 32775, 32767, 32776] =
      .ok (.add (.register 7) (.literal 32767) (.invalid 32776), []) := by decide
/-- S11: the bytes 09 00 00 80 are the words 9 and 32768. -/
theorem test_words_of_bytes : wordsOfBytes [0x09, 0x00, 0x00, 0x80] = [9, 32768] := by decide
theorem test_table_word : decodeTableWord 16 15 = some (.rmem (.literal 0) (.literal 0)) := by decide
theorem test_table_word_with_operands :
    decodeTableWord 48 (1 + 2 ^ 16 * 32770 + 2 ^ 32 * 1234) = some (.set (.register 2) (.literal 1234)) := by decide

/-! ### Machine control -/

/-- V1. -/
theorem test_halt : sees (machine [0]) (fun t => (t.status, t.pc, t.output)) = some (1, 0, []) := by decide
/-- V3. -/
theorem test_noop : stepped (machine [21]) = some { machine [21] with pc := 1 } := by decide
/-- V4: noop at the last address, and the fault of the fetch after it. -/
theorem test_noop_at_the_end :
    sees { machine [] with pc := 32767, mem := [(65534, 21)] } (fun t => (t.pc, faultOf t)) =
      some (32768, some (98, 32768, 32768, 32768)) := by decide

/-! ### Register move and stack -/

/-- V11: no clamp. -/
theorem test_set_copies : sees ((machine [1, 32774, 32773]).writeReg 5 40000) (·.regs[6]) = some 40000 := by decide
/-- V13. -/
theorem test_set_literal_destination : faultOf (machine [1, 7, 5]) = some (34, 0, 7, 0) := by decide
/-- V16, the top last. -/
theorem test_push : sees { machine [2, 32767] with stack := [1] } (·.stack) = some [1, 32767] := by decide
/-- V18. -/
theorem test_push_full :
    sees (bounded 2 { machine [2, 6] with stack := [4, 5] }) (fun t => (t.status, t.stack)) =
      some (162, [4, 5]) := by decide
/-- V20. -/
theorem test_pop :
    sees { machine [3, 32769] with stack := [7, 9] } (fun t => (t.regs[1], t.stack, t.pc)) =
      some (9, [7], 2) := by decide
/-- V22: the destination is resolved before the stack is looked at. -/
theorem test_pop_literal_destination : faultOf (machine [3, 5]) = some (34, 0, 5, 0) := by decide

/-! ### Comparison, arithmetic and logic -/

/-- V32. -/
theorem test_eq_no_clamp :
    sees ((machine [4, 32768, 32769, 7232]).writeReg 1 40000) (·.regs[0]) = some 0 := by decide
/-- V33. -/
theorem test_eq_same_register :
    sees ((machine [4, 32770, 32770, 32770]).writeReg 2 8) (·.regs[2]) = some 1 := by decide
/-- V35. -/
theorem test_gt_strict : sees (machine [5, 32769, 4, 4]) (·.regs[1]) = some 0 := by decide
/-- V36. -/
theorem test_gt_unsigned :
    sees ((machine [5, 32768, 32771, 32767]).writeReg 3 40000) (·.regs[0]) = some 1 := by decide
/-- V38. -/
theorem test_add_wraps : sees (machine [9, 32768, 32767, 32767]) (·.regs[0]) = some 32766 := by decide
/-- V40. -/
theorem test_add_source_is_destination :
    sees ((machine [9, 32768, 32768, 32768]).writeReg 0 20000) (·.regs[0]) = some 7232 := by decide
/-- V44. -/
theorem test_mult : sees (machine [10, 32768, 181, 181]) (·.regs[0]) = some 32761 := by decide
/-- V45. -/
theorem test_mult_large_operand :
    sees ((machine [10, 32768, 32769, 2]).writeReg 1 40000) (·.regs[0]) = some 14464 := by decide
/-- V58: 40000 clamped. -/
theorem test_mod_clamps :
    sees (((machine [11, 32768, 32769, 32770]).writeReg 1 40000).writeReg 2 50000) (·.regs[0]) =
      some 7232 := by decide
/-- V57. -/
theorem test_mod_by_zero :
    sees ((machine [11, 32768, 0, 0]).writeReg 0 77) (fun t => (t.status, t.regs[0])) = some (130, 77) := by decide
/-- V60. -/
theorem test_and : sees (machine [12, 32770, 12, 10]) (·.regs[2]) = some 8 := by decide
/-- V62. -/
theorem test_and_clamps :
    sees ((machine [12, 32768, 32769, 32769]).writeReg 1 40000) (·.regs[0]) = some 7232 := by decide
/-- V64. -/
theorem test_or : sees (machine [13, 32768, 21845, 10922]) (·.regs[0]) = some 32767 := by decide
/-- V65. -/
theorem test_or_clamps :
    sees ((machine [13, 32768, 32769, 0]).writeReg 1 40000) (·.regs[0]) = some 7232 := by decide
/-- V68. -/
theorem test_not : sees (machine [14, 32768, 21845]) (fun t => (t.regs[0], t.pc)) = some (10922, 3) := by decide
/-- V70. -/
theorem test_not_ignores_bit_15 :
    sees ((machine [14, 32768, 32769]).writeReg 1 40000) (·.regs[0]) = some 25535 := by decide

/-! ### Control transfer -/

/-- V81. -/
theorem test_jmp : sees ((machine [6, 32768]).writeReg 0 32767) (·.pc) = some 32767 := by decide
/-- V82. -/
theorem test_jmp_bad_target : faultOf ((machine [6, 32768]).writeReg 0 32768) = some (66, 0, 32768, 0) := by decide
/-- V86. -/
theorem test_jt_taken : sees ((machine [7, 32769, 20]).writeReg 1 40000) (·.pc) = some 20 := by decide
/-- V87: an untaken jump does not check its target. -/
theorem test_jt_untaken : sees ((machine [7, 0, 32770]).writeReg 2 50000) (·.pc) = some 3 := by decide
/-- V90. -/
theorem test_jf_taken : sees (machine [8, 0, 20]) (·.pc) = some 20 := by decide
/-- V91. -/
theorem test_jf_untaken : sees (machine [8, 5, 20]) (·.pc) = some 3 := by decide
/-- V93. -/
theorem test_call :
    sees { machine [0, 0, 0, 0, 0, 17, 12] with pc := 5 } (fun t => (t.stack, t.pc)) = some ([7], 12) := by decide
/-- V96: the target is checked before the depth. -/
theorem test_call_target_before_overflow :
    faultOf (bounded 1 { (machine [17, 32768]).writeReg 0 40000 with stack := [9] }) =
      some (66, 0, 40000, 0) := by decide
/-- V98. -/
theorem test_ret :
    sees { machine [18] with stack := [7] } (fun t => (t.pc, t.stack)) = some (7, []) := by decide
/-- V100: the top is not popped. -/
theorem test_ret_bad_target :
    sees { machine [18] with stack := [5, 32768] } (fun t => (t.status, t.faultInfo, t.stack)) =
      some (66, 32768, [5, 32768]) := by decide

/-! ### Memory -/

/-- V111: rmem reads its own operand word. -/
theorem test_rmem_own_word : sees (machine [15, 32768, 1]) (·.regs[0]) = some 32768 := by decide
/-- V114. -/
theorem test_rmem_bad_address :
    faultOf ((machine [15, 32768, 32769]).writeReg 1 32768) = some (50, 0, 32768, 0) := by decide
/-- V117. -/
theorem test_wmem_at_the_end :
    sees ((machine [16, 32767, 32770]).writeReg 2 40000) (·.mem.readWord 32767) = some 40000 := by decide
/-- V120: a wmem over its own operand, read back as the words 16, 0, 0, in canonical form. -/
theorem test_wmem_own_word :
    sees (machine [16, 1, 0]) (fun t => (t.pc, t.mem)) = some (3, [(0, 16)]) := by decide

/-! ### Console -/

/-- V131. -/
theorem test_out_masks : sees (machine [19, 300]) (·.output) = some [44] := by decide
/-- V132. -/
theorem test_out_large : sees ((machine [19, 32769]).writeReg 1 40000) (·.output) = some [64] := by decide
/-- V136, and the answer of V135 completing it. -/
theorem test_in_holds_then_completes :
    sees (machine [20, 32771]) (fun t => (t.status, t.pc, t.regs[3],
      match inputReply (.char 65) t with
      | .next u => some (u.status, u.pc, u.regs[3])
      | .fault _ => none
      | .refused _ => none)) = some (4, 0, 0, some (0, 2, 65)) := by decide
/-- V137. -/
theorem test_in_end_of_input :
    sees { (machine [20, 32771]).writeReg 3 12 with input := [.endOfInput] } (fun t => (t.status, t.regs[3])) =
      some (146, 12) := by decide

/-! ### Fetch, priority, load -/

/-- V140. -/
theorem test_illegal_opcode : faultOf (machine [22]) = some (82, 0, 22, 0) := by decide
/-- V142. -/
theorem test_operand_fetch_past_the_end :
    faultOf { machine [] with pc := 32767, mem := [(65534, 19)] } = some (98, 32767, 32768, 32767) := by decide
/-- V143: operand a resolves before b is fetched. -/
theorem test_resolution_before_fetch :
    faultOf { machine [] with pc := 32766, mem := [(65532, 9), (65534, 5)] } =
      some (34, 32766, 5, 32766) := by decide
/-- V145: resolution before DivideByZero. -/
theorem test_resolution_before_execution : faultOf (machine [11, 32768, 32776, 0]) = some (18, 0, 32776, 0) := by
  decide
/-- V5, V6. -/
theorem test_terminal : stepped { machine [21] with run := .halted } = some { machine [21] with run := .halted } := by
  decide
/-- S11. -/
theorem test_load :
    (load Config.source [0x09, 0x00, 0x00, 0x80, 0x04, 0x00]).map (fun s => (s.mem.readWord 0, s.mem.readWord 1,
      s.mem.readWord 2, s.mem.readWord 3)) = some (9, 32768, 4, 0) := by decide
theorem test_load_odd : load Config.source [0x09, 0x00, 0x00, 0x80, 0x04] = none := by decide
/-- The instruction withFetchWord stores is the one the next step runs. -/
theorem test_with_fetch_word :
    sees (State.reset.withFetchWord 48 (1 + 2 ^ 16 * 32770 + 2 ^ 32 * 1234)) (·.regs[2]) = some 1234 := by decide

/-! ### Witnesses: states and operands that meet the hypotheses of each statement, a boundary value for each clause -/

/-- A state with register 1 at 40000 and register 2 at 32767. -/
def registers (words : List Word) : State :=
  ((machine words).writeReg 1 40000).writeReg 2 32767

/-- In an unbounded build nothing is asked of the depth. -/
theorem no_bound {s : State} {P : Nat → Prop} (h : s.config.stackDepthMax = none) :
    ∀ n, s.config.stackDepthMax = some n → P n :=
  fun _ h' => absurd (h.symm.trans h') (by simp)

/-- A reset machine with an image whose memory is canonical meets the invariant. -/
theorem machine_inv (words : List Word) (h : Memory.wf (machine words).mem) : Inv (machine words) :=
  ⟨h, Nat.zero_le _, ⟨rfl, rfl⟩, fun h => absurd (show false = true from h) (by decide), no_bound rfl, rfl⟩

theorem witness_DecodeOfEncode : (Instr.add (.register 7) (.literal 32767) (.invalid 32776)).wf = true := by decide

theorem witness_EncodeOfDecode :
    decode [9, 32775, 32767, 65535, 1] =
      .ok (.add (.register 7) (.literal 32767) (.invalid 65535), [1]) := by decide

theorem witness_OperandWordClasses :
    (32767 : Word).toNat ≤ 32767 ∧ (32768 : Word).toNat = 32768 + (0 : RegIndex).val ∧
      (32775 : Word).toNat = 32768 + (7 : RegIndex).val ∧ 32776 ≤ (32776 : Word).toNat := by decide

theorem witness_ValueOperandResolution :
    (0 : Word).toNat ≤ 32767 ∧ (32775 : Word).toNat = 32768 + (7 : RegIndex).val ∧
      32776 ≤ (65535 : Word).toNat := by decide

theorem witness_RegisterOperandResolution :
    (32768 : Word).toNat = 32768 + (0 : RegIndex).val ∧ (32767 : Word).toNat ≤ 32767 ∧
      32776 ≤ (32776 : Word).toNat := by decide

theorem witness_AddressOperandResolution :
    (32767 : Word).toNat ≤ 32767 ∧
    ((32770 : Word).toNat = 32768 + (2 : RegIndex).val ∧ (registers []).regs[2].toNat ≤ 32767) ∧
    ((32769 : Word).toNat = 32768 + (1 : RegIndex).val ∧ 32768 ≤ (registers []).regs[1].toNat) ∧
    32776 ≤ (32776 : Word).toNat := by decide

theorem witness_StepRunsDecodedInstruction :
    (machine [21]).run = .running ∧ decode (machine [21]).fetched = .ok (.noop, [0, 0, 0]) := by decide

/-- At the last address of Memory. -/
def lastWord (w : Byte) : State :=
  { machine [] with pc := 32767, mem := [(65534, w)] }

theorem witness_StepRunsWordsInMemory :
    (lastWord 21).run = .running ∧ Instr.noop.wf = true ∧ wordsAtPc (lastWord 21) (encode .noop) :=
  ⟨rfl, rfl, fun k h => by
    have hk : k = 0 := Nat.lt_one_iff.mp h
    subst hk
    rfl⟩

theorem witness_TerminalStatesStay :
    ({ machine [] with run := .halted } : State).run ≠ .running ∧
    ({ machine [] with run := .faulted .divideByZero } : State).run ≠ .running := by decide

/-- The PC just beyond Memory. -/
def beyond : State := { machine [] with pc := 32768 }

theorem witness_OpcodeFetch :
    (beyond.run = .running ∧ 32768 ≤ beyond.pc.toNat) ∧ (32767 : Addr).val = (lastWord 0).pc.toNat ∧ Inv beyond :=
  ⟨by decide, by decide,
    by decide, by decide, ⟨rfl, rfl⟩, fun h => absurd h (by decide), no_bound rfl, rfl⟩

theorem witness_IllegalOpcodeFaults :
    22 ≤ (22 : Word).toNat ∧ (machine [22]).run = .running ∧ (0 : Addr).val = (machine [22]).pc.toNat ∧
      (machine [22]).mem.readWord 0 = 22 := by decide

/-- V142 and V143: nothing after the opcode word; an operand that does not resolve before the end. -/
theorem witness_OperandFetchPastTheEnd :
    ((lastWord 19).run = .running ∧ (lastWord 19).fetchWord 32767 = .ok 19 ∧
      (lastWord 19).pc.toNat + 1 + ([] : List Word).length = 32768 ∧
      ([] : List Word).length < (operandKinds 19).length ∧
      firstOperandFault (lastWord 19) (operandKinds 19) (([] : List Word).map Operand.ofWord) = none) ∧
    ([5] : List Word).length < (operandKinds 9).length ∧
    firstOperandFault (lastWord 9) (operandKinds 9) (([5] : List Word).map Operand.ofWord) =
      some ⟨.invalidDestination, 5⟩ := by decide

theorem witness_OperandFetchPastTheEnd_words : wordsAtPc (lastWord 19) [19] :=
  fun k h => by
    have hk : k = 0 := Nat.lt_one_iff.mp h
    subst hk
    rfl

/-- The state of V143, with `add` in the last but one word and the operand word 5 in the last. -/
def lastTwoWords : State := { machine [] with pc := 32766, mem := [(65532, 9), (65534, 5)] }

theorem witness_OperandFetchPastTheEnd_operand :
    wordsAtPc lastTwoWords [9, 5] ∧ lastTwoWords.pc.toNat + 1 + ([5] : List Word).length = 32768 ∧
    firstOperandFault lastTwoWords (operandKinds 9) (([5] : List Word).map Operand.ofWord) =
      some ⟨.invalidDestination, 5⟩ :=
  ⟨fun k h => by
    have hk : k = 0 ∨ k = 1 := by
      have : k < 2 := h
      omega
    rcases hk with rfl | rfl <;> rfl, by decide, by decide⟩

theorem witness_FirstOperandFaultIsTaken :
    firstOperandFault (machine []) (operandKinds (Instr.mod (.register 0) (.literal 1) (.invalid 32776)).opcode)
      (Instr.mod (.register 0) (.literal 1) (.invalid 32776)).operands = some ⟨.invalidOperand, 32776⟩ := by decide

theorem witness_FaultsArePrecise :
    Inv (machine [18]) ∧ (machine [18]).run = .running ∧
      sees (machine [18]) (·.run) = some (.faulted .stackUnderflow) :=
  ⟨machine_inv [18] (by decide), by decide, by decide⟩

/-- What exec answers, observed. -/
def execSees {α : Type} (i : Instr) (s : State) (f : State → α) : Option α :=
  match exec i s with
  | .next t => some (f t)
  | .fault _ => none
  | .refused _ => none

theorem witness_FaultsOfEachInstruction :
    (bounded 1 { machine [] with stack := [9] }).run = .running ∧
      execSees (.push (.literal 6)) (bounded 1 { machine [] with stack := [9] }) (·.run) =
        some (.faulted .stackOverflow) := by decide

theorem witness_HaltRule : (machine []).run = .running ∧ (machine []).fetchWord (machine []).pc.toNat = .ok 0 := by
  decide

theorem witness_NoopRule :
    (lastWord 21).run = .running ∧ (lastWord 21).fetchWord (lastWord 21).pc.toNat = .ok 21 ∧
      (lastWord 21).pc = 32767 := by decide

/-- SetRule, NotRule: each operand's fault, and both resolved. -/
theorem witness_TwoOperandRule :
    destination (.literal 32767) = .error ⟨.invalidDestination, 32767⟩ ∧
    (destination (.register 0) = .ok 0 ∧ value (machine []) (.invalid 32776) = .error ⟨.invalidOperand, 32776⟩) ∧
    (destination (.register 7) = .ok 7 ∧ value (registers []) (.register 1) = .ok 40000) := by decide

/-- EqRule, GtRule, AddRule, MultRule, ModRule, AndRule, OrRule: each operand's fault, and all resolved, for mod with
a divisor that is not 0 and with 0. -/
theorem witness_ThreeOperandRule :
    destination (.invalid 65535) = .error ⟨.invalidDestination, 65535⟩ ∧
    (destination (.register 0) = .ok 0 ∧ value (machine []) (.invalid 32776) = .error ⟨.invalidOperand, 32776⟩) ∧
    (destination (.register 0) = .ok 0 ∧ value (registers []) (.register 2) = .ok 32767 ∧
      value (registers []) (.invalid 40000) = .error ⟨.invalidOperand, 40000⟩) ∧
    (destination (.register 1) = .ok 1 ∧ value (registers []) (.register 1) = .ok 40000 ∧
      value (registers []) (.literal 32767) = .ok 32767 ∧ (32767 : Word) ≠ 0) ∧
    value (machine []) (.literal 0) = .ok 0 := by decide

theorem witness_PushRule :
    value (machine []) (.invalid 32776) = .error ⟨.invalidOperand, 32776⟩ ∧
    (value (machine []) (.literal 6) = .ok 6 ∧
      (bounded 2 { machine [] with stack := [4, 5] }).config.stackDepthMax = some 2 ∧
      2 ≤ (bounded 2 { machine [] with stack := [4, 5] }).stack.length) := by decide

/-- Room in an unbounded build, and in a bounded one with one place left. -/
theorem witness_hasRoom : hasRoom (machine []) ∧ hasRoom (bounded 1 (machine [])) :=
  ⟨no_bound rfl, fun n h => by
    have hn : n = 1 := (Option.some.inj h).symm
    subst hn
    decide⟩

theorem witness_PopRule :
    destination (.literal 5) = .error ⟨.invalidDestination, 5⟩ ∧
    (destination (.register 4) = .ok 4 ∧ (machine []).stack = []) ∧
    ({ machine [] with stack := [7, 9] } : State).stack = [7] ++ [9] := by decide

theorem witness_PushPopRoundTrip :
    value (registers []) (.register 1) = .ok 40000 ∧ hasRoom (registers []) :=
  ⟨by decide, no_bound rfl⟩

theorem witness_ArithmeticLaws :
    (32767 : Word).toNat ≤ 32767 ∧ (0 : Word).toNat ≤ 32767 ∧ value (machine []) (.literal 0) = .ok 0 := by decide

theorem witness_ArithmeticResultsAreLiterals :
    clampedResult (.or (.register 0) (.register 1) (.literal 0)) = true ∧
    destinationOperand (.or (.register 0) (.register 1) (.literal 0)) = some (.register 0) ∧
    (registers []).run = .running ∧
    execSees (.or (.register 0) (.register 1) (.literal 0)) (registers []) (·.run) = some .running := by decide

theorem witness_JmpRule :
    value (machine []) (.invalid 32776) = .error ⟨.invalidOperand, 32776⟩ ∧
    (value (registers []) (.register 2) = .ok 32767 ∧ (32767 : Word).toNat ≤ 32767) ∧
    (value ((machine []).writeReg 0 32768) (.register 0) = .ok 32768 ∧ 32768 ≤ (32768 : Word).toNat) := by decide

theorem witness_ConditionalJumpRules :
    value (machine []) (.invalid 32776) = .error ⟨.invalidOperand, 32776⟩ ∧
    (value (machine []) (.literal 0) = .ok 0 ∧
      value (machine []) (.invalid 65535) = .error ⟨.invalidOperand, 65535⟩) ∧
    (value (registers []) (.register 1) = .ok 40000 ∧ value (registers []) (.literal 32767) = .ok 32767 ∧
      (40000 : Word) ≠ 0 ∧ (32767 : Word).toNat ≤ 32767 ∧ 32768 ≤ (40000 : Word).toNat) ∧
    (value (registers []) (.literal 0) = .ok 0 ∧ ¬ ((0 : Word) ≠ 0) ∧ ¬ ((1 : Word) = 0)) := by decide

theorem witness_CallRule :
    value (machine []) (.invalid 32776) = .error ⟨.invalidOperand, 32776⟩ ∧
    (value (registers []) (.register 1) = .ok 40000 ∧ 32768 ≤ (40000 : Word).toNat) ∧
    (value (machine []) (.literal 10) = .ok 10 ∧ (10 : Word).toNat ≤ 32767 ∧
      (bounded 1 { machine [] with stack := [9] }).config.stackDepthMax = some 1 ∧
      1 ≤ (bounded 1 { machine [] with stack := [9] }).stack.length) := by decide

theorem witness_RetRule :
    (machine []).stack = [] ∧
    (({ machine [] with stack := [5, 32768] } : State).stack = [5] ++ [32768] ∧ 32768 ≤ (32768 : Word).toNat) ∧
    (({ machine [] with stack := [32767] } : State).stack = [] ++ [32767] ∧ (32767 : Word).toNat ≤ 32767) := by
  decide

theorem witness_CallThenRetResumes :
    value (machine []) (.literal 10) = .ok 10 ∧ (10 : Word).toNat ≤ 32767 ∧ hasRoom (machine []) ∧
      (machine []).pc.toNat + 2 ≤ 32767 :=
  ⟨by decide, by decide, no_bound rfl, by decide⟩

theorem witness_RmemRule :
    destination (.literal 0) = .error ⟨.invalidDestination, 0⟩ ∧
    (destination (.register 0) = .ok 0 ∧
      memAddress (registers []) (.register 1) = .error ⟨.invalidMemoryAddress, 40000⟩) ∧
    memAddress (registers []) (.register 2) = .ok 32767 := by decide

theorem witness_WmemRule :
    memAddress (registers []) (.register 1) = .error ⟨.invalidMemoryAddress, 40000⟩ ∧
    (memAddress (machine []) (.literal 10) = .ok 10 ∧
      value (machine []) (.invalid 32776) = .error ⟨.invalidOperand, 32776⟩) ∧
    (memAddress (registers [21]) (.literal 32767) = .ok 32767 ∧
      value (registers [21]) (.register 1) = .ok 40000 ∧ Memory.wf (registers [21]).mem) := by decide

theorem witness_ReadAfterWrite : Memory.wf (machine [1, 2]).mem := by decide

theorem witness_FetchSeesStores :
    Memory.wf (machine [16, 1, 0]).mem ∧ memAddress (machine [16, 1, 0]) (.literal 1) = .ok 1 ∧
      value (machine [16, 1, 0]) (.literal 0) = .ok 0 ∧
      execSees (.wmem (.literal 1) (.literal 0)) (machine [16, 1, 0]) (·.pc) = some 3 := by decide

theorem witness_OutRule :
    value (machine []) (.invalid 32776) = .error ⟨.invalidOperand, 32776⟩ ∧
      value (registers []) (.register 1) = .ok 40000 := by decide

theorem witness_InRule :
    destination (.invalid 32776) = .error ⟨.invalidDestination, 32776⟩ ∧
    (destination (.register 0) = .ok 0 ∧
      ({ machine [] with input := [.char 255, .endOfInput] } : State).input = .char 255 :: [.endOfInput]) ∧
    ({ machine [] with input := [.endOfInput] } : State).input = .endOfInput :: [] ∧
    (machine []).input = [] := by decide

theorem witness_InHolds :
    (machine [20, 32771]).run = .running ∧
      decode (machine [20, 32771]).fetched = .ok (.inChar (.register 3), [0, 0]) ∧
      (machine [20, 32771]).input = [] := by decide

theorem witness_InputReplyCompletes :
    ((machine [20, 32771]).hold.run = .running ∧ (machine [20, 32771]).hold.waitIn = true ∧
      decode (machine [20, 32771]).hold.fetched = .ok (.inChar (.register 3), [0, 0]) ∧
      (machine [20, 32771]).hold.input = []) ∧
    (machine [20, 32771]).waitIn = false ∧ ({ machine [] with run := .halted } : State).run ≠ .running := by decide

/-- RegisterFrame, StackFrame, ConsoleFrame, StatusFrame: an instruction that answers a next state, and a register it
does not name. -/
theorem witness_RegisterFrame :
    execSees (.add (.register 0) (.literal 1) (.literal 2)) (registers []) (·.pc) = some 4 ∧
      destinationOperand (.add (.register 0) (.literal 1) (.literal 2)) ≠ some (.register 1) := by decide

/-- The first byte after the word that is stored, and an instruction that stores nothing. -/
theorem witness_MemoryFrame :
    (execSees (.wmem (.literal 10) (.literal 3)) (machine []) (·.pc) = some 3 ∧
      ∀ a b addr, Instr.wmem (.literal 10) (.literal 3) = .wmem a b → memAddress (machine []) a = .ok addr →
        22 ≠ 2 * addr.val ∧ 22 ≠ 2 * addr.val + 1) ∧
    execSees .noop (machine []) (·.pc) = some 1 := by
  refine ⟨⟨by decide, fun a b addr h ha => ?_⟩, by decide⟩
  obtain ⟨rfl, rfl⟩ := Instr.wmem.inj h
  have : addr = 10 := (Except.ok.inj ha).symm
  subst this
  decide

theorem witness_StackFrame :
    execSees (.push (.literal 3)) (machine []) (·.stack) = some [3] ∧
    execSees (.call (.literal 3)) (machine []) (·.stack) = some [2] ∧
    execSees (.pop (.register 0)) { machine [] with stack := [7, 9] } (·.stack) = some [7] ∧
    execSees .ret { machine [] with stack := [7, 9] } (·.stack) = some [7] ∧ usesStack .noop = false := by decide

theorem witness_ConsoleFrame :
    execSees (.out (.literal 300)) (machine []) (·.output) = some [44] ∧
    execSees (.inChar (.register 0)) { machine [] with input := [.char 1, .char 2] } (·.input) =
      some [.char 2] := by decide

theorem witness_StatusFrame :
    execSees .halt (machine []) (·.run) = some .halted ∧
    execSees (.inChar (.register 0)) (machine []) (·.waitIn) = some true := by decide

/-- The last word of Memory, and a transfer. -/
theorem witness_PcAfterCompletion :
    (lastWord 21).pc.toNat + Instr.noop.length ≤ 32768 ∧
    execSees .noop (lastWord 21) (fun t => (t.run, t.waitIn)) = some (.running, false) ∧
    execSees (.jmp (.literal 32767)) (machine []) (fun t => (t.run, t.waitIn)) = some (.running, false) := by decide

/-- A state for each clause: every kind of fault can be the one RUN carries, and a Running state is not Faulted. -/
theorem witness_StatusRegisterFields :
    (∀ k : FaultKind, ({ machine [] with run := .faulted k } : State).run = .faulted k) ∧
      (machine []).notFaulted :=
  ⟨fun _ => rfl, fun _ h => by cases h⟩

theorem witness_HostViewIsInvisible :
    sees (machine [19, 65]) (·.pc) = some 2 ∧
      sees { machine [19, 65] with output := [1], faultPc := 2, faultInfo := 3 } (·.pc) = some 2 := by decide

/-- The empty image, and images refused for their parity; a bound of 1. -/
theorem witness_LoadFillsMemory :
    ([] : List Byte).length % 2 = 0 ∧ ([] : List Byte).length ≤ 65536 ∧ ([9] : List Byte).length % 2 = 1 := by decide

/-- The longest image that is loaded. -/
theorem witness_LoadFillsMemory_longest :
    (List.replicate 65536 (0 : Byte)).length % 2 = 0 ∧ (List.replicate 65536 (0 : Byte)).length ≤ 65536 := by
  rw [List.length_replicate]
  decide

/-- The shortest image of whole words that is refused for its length. -/
theorem witness_LoadFillsMemory_wordTooLong :
    (List.replicate 65538 (0 : Byte)).length % 2 = 0 ∧ 65536 < (List.replicate 65538 (0 : Byte)).length := by
  rw [List.length_replicate]
  decide

/-- An image one byte too long. -/
theorem witness_LoadFillsMemory_tooLong : 65536 < (List.replicate 65537 (0 : Byte)).length := by
  rw [List.length_replicate]
  decide

theorem witness_ResetMeetsInvariant :
    (Config.mk (some 1)).wf = true ∧ (load ⟨some 1⟩ [21, 0]).isSome = true := by decide

theorem witness_StepKeepsInvariant :
    Inv (machine [21]) ∧ sees (machine [21]) (·.pc) = some 1 :=
  ⟨machine_inv [21] (by decide), by decide⟩

/-- A waiting machine meets the invariant, and an answer gives a next state. -/
theorem witness_StepKeepsInvariant_inputReply :
    Inv (machine [20, 32771]).hold ∧ ∃ t, inputReply (.char 65) (machine [20, 32771]).hold = .next t :=
  ⟨⟨by decide, by decide, ⟨rfl, rfl⟩, fun _ => ⟨rfl, 3, [0, 0], by decide⟩, no_bound rfl, rfl⟩,
    _, rfl⟩

end Sys2Proof.Tests
end

section
/-! SUPPORT. The operand word's fields as bits (spec/30_encoding.md R84), the decoder on an illegal opcode word (R93),
and the operand resolvers on a raw word (R86-R88). -/

namespace Sys2Proof

/-! ### The bits of an operand word (R84) -/

/-- A word is in the literal range iff its bit 15 is 0. -/
theorem Word.le_32767_iff_bit15 (w : Word) : w.toNat ≤ 32767 ↔ w.getLsbD 15 = false := by
  have hmsb : w.getLsbD 15 = decide (32768 ≤ w.toNat) :=
    (BitVec.msb_eq_getLsbD_last w).symm.trans (BitVec.msb_eq_decide w)
  rw [hmsb, decide_eq_false_iff_not]
  omega

/-- A word is in the register range iff its bits 15:3 are 4096. -/
theorem Word.register_range_iff_bits (w : Word) :
    32768 ≤ w.toNat ∧ w.toNat ≤ 32775 ↔ w.extractLsb' 3 13 = 4096#13 := by
  have hw := w.isLt
  rw [← BitVec.toNat_inj, BitVec.extractLsb'_toNat, BitVec.toNat_ofNat, Nat.shiftRight_eq_div_pow]
  omega

/-- The register index is bits 2:0 of the word. -/
theorem Word.register_index_bits {w : Word} {i : RegIndex} (h : w.toNat = 32768 + i.val) :
    (w.extractLsb' 0 3).toNat = i.val := by
  have hi := i.isLt
  rw [BitVec.extractLsb'_toNat, Nat.shiftRight_zero]
  omega

/-! ### The illegal opcode words (R93) -/

/-- The decoder refuses an opcode word from 22 on, whatever follows it. -/
theorem decode_illegal {op : Word} (h : 22 ≤ op.toNat) (rest : List Word) :
    decode (op :: rest) = .error (.illegalInstruction op) := by
  simp only [decode, decodeAs]
  split
  case h_23 => rfl
  all_goals omega

end Sys2Proof

namespace Sys2Proof.Machine

/-! ### The resolvers on a raw word (R86, R87) -/

theorem value_ofWord_literal (s : State) {w : Word} (h : w.toNat < 32768) :
    value s (Operand.ofWord w) = .ok w := by
  have hw : (w.setWidth 15).setWidth 16 = w := by
    apply BitVec.eq_of_toNat_eq
    simp only [BitVec.toNat_setWidth]
    omega
  rw [Operand.ofWord_literal h, value, hw]

theorem value_ofWord_register (s : State) {w : Word} {i : RegIndex} (h : w.toNat = 32768 + i.val) :
    value s (Operand.ofWord w) = .ok s.regs[i] := by
  rw [Operand.ofWord_register i h]
  rfl

theorem value_ofWord_invalid (s : State) {w : Word} (h : 32776 ≤ w.toNat) :
    value s (Operand.ofWord w) = .error ⟨.invalidOperand, w⟩ := by
  rw [Operand.ofWord_invalid h]
  rfl

theorem destination_ofWord_register {w : Word} {i : RegIndex} (h : w.toNat = 32768 + i.val) :
    destination (Operand.ofWord w) = .ok i :=
  destination_eq_ok.mpr (Operand.ofWord_register i h)

/-- Outside the register range a destination raises InvalidDestination with the word. -/
theorem destination_ofWord_not_register {w : Word} (h : w.toNat ≤ 32767 ∨ 32776 ≤ w.toNat) :
    destination (Operand.ofWord w) = .error ⟨.invalidDestination, w⟩ := by
  refine destination_eq_error.mpr ⟨fun i hi => ?_, by rw [Operand.toWord_ofWord]⟩
  rcases h with h | h
  · simp [Operand.ofWord_literal (Nat.lt_succ_of_le h)] at hi
  · simp [Operand.ofWord_invalid h] at hi

/-! ### The address check on a resolved value (R88) -/

/-- A value below 32768 is the address it names. -/
theorem memAddress_of_value_lt {s : State} {o : Operand} {v : Word} (hv : value s o = .ok v)
    (h : v.toNat ≤ 32767) : ∃ a : Addr, memAddress s o = .ok a ∧ a.val = v.toNat :=
  ⟨⟨v.toNat, by omega⟩, memAddress_eq_ok.mpr ⟨v, hv, rfl⟩, rfl⟩

theorem memAddress_of_value_ge {s : State} {o : Operand} {v : Word} (hv : value s o = .ok v)
    (h : 32768 ≤ v.toNat) : memAddress s o = .error ⟨.invalidMemoryAddress, v⟩ :=
  memAddress_eq_error.mpr (.inr ⟨v, hv, h, rfl⟩)

theorem memAddress_of_value_error {s : State} {o : Operand} {e : Raise} (hv : value s o = .error e) :
    memAddress s o = .error e :=
  memAddress_eq_error.mpr (.inl hv)

/-- An invalid word resolves in none of the three kinds of operand position (R84). -/
theorem operandFault_ofWord_invalid (s : State) (k : OperandKind) {w : Word} (h : 32776 ≤ w.toNat) :
    operandFault s k (Operand.ofWord w) ≠ none := by
  have hv := value_ofWord_invalid s h
  cases k with
  | value => simp [operandFault, hv]
  | destination => simp [operandFault, destination_ofWord_not_register (.inr h)]
  | address => simp [operandFault, memAddress_of_value_error hv]

/-! ### The fetched words -/

/-- With the PC at an address, the words of a step begin with the word there. -/
theorem fetched_of_address {s : State} {a : Addr} (h : a.val = s.pc.toNat) :
    s.fetched = s.mem.readWord a :: s.mem.window (s.pc.toNat + 1) 3 :=
  window_of_address (addressOf_eq_some.mpr h)

/-- A Running step whose words do not decode takes the fault of its fetch (R112-R114). -/
theorem step_of_decode_error {s : State} {r : Reject} (hrun : s.run = .running)
    (hd : decode s.fetched = .error r) : step s = .next (s.takeFault (fetchFault s r)) := by
  rw [step_running hrun, hd]

/-! ### The obligations of the encoding chapter: operand words and illegal opcodes -/

/-- Settles O4, from the classes of a word by range and the three facts about its bits. -/
theorem operandWordClasses : Obligations.OperandWordClasses := fun w =>
  ⟨fun h => Operand.ofWord_literal (Nat.lt_succ_of_le h),
    fun i h => ⟨Operand.ofWord_register i h, Word.register_index_bits h⟩,
    fun h => ⟨Operand.ofWord_invalid h, fun s k => operandFault_ofWord_invalid s k h⟩,
    Word.le_32767_iff_bit15 w,
    Word.register_range_iff_bits w⟩

/-- Settles O5, one resolver lemma per range of the word. -/
theorem valueOperandResolution : Obligations.ValueOperandResolution := fun s _ =>
  ⟨fun h => value_ofWord_literal s (Nat.lt_succ_of_le h),
    fun _ h => value_ofWord_register s h,
    fun h => value_ofWord_invalid s h⟩

/-- Settles O6: a destination resolves exactly when its word is in the register range. -/
theorem registerOperandResolution : Obligations.RegisterOperandResolution := fun _ =>
  ⟨fun _ h => destination_ofWord_register h, destination_ofWord_not_register⟩

/-- Settles O7: the value of the operand first, then the address check on that value. -/
theorem addressOperandResolution : Obligations.AddressOperandResolution := fun s _ =>
  ⟨fun h => memAddress_of_value_lt (value_ofWord_literal s (Nat.lt_succ_of_le h)) h,
    fun _ h => memAddress_of_value_lt (value_ofWord_register s h),
    fun _ h => memAddress_of_value_ge (value_ofWord_register s h),
    fun h => memAddress_of_value_error (value_ofWord_invalid s h)⟩

/-- Settles O14: the opcode word heads the fetched words, and the decoder refuses it before it looks at the rest. -/
theorem illegalOpcodeFaults : Obligations.IllegalOpcodeFaults := by
  intro s a op hop
  refine ⟨decode_illegal hop, fun hrun hpc hread => ?_⟩
  have hd : decode s.fetched = .error (.illegalInstruction op) := by
    rw [fetched_of_address hpc, hread, decode_illegal hop]
  rw [step_of_decode_error hrun hd]
  rfl

end Sys2Proof.Machine
end

section
/-! SUPPORT. The opcode fetch (spec/40_fetch_decode_execute.md R112). -/

namespace Sys2Proof.Machine

/-- With the PC beyond Memory no word is fetched. -/
theorem fetched_of_pc_beyond {s : State} (h : 32768 ≤ s.pc.toNat) : s.fetched = [] :=
  window_of_no_address (addressOf_eq_none.mpr h)

/-- With the PC beyond Memory the fetch is refused at the PC itself, before any operand. -/
theorem fetchFault_of_pc_beyond {s : State} (h : 32768 ≤ s.pc.toNat) :
    fetchFault s .truncated = ⟨.addressOutOfRange, s.pc⟩ := by
  simp [fetchFault, fetched_of_pc_beyond h, truncatedFault]

/-- The invariant keeps the PC at most 32768 (R27), so beyond Memory it is 32768. -/
theorem Inv.pc_eq_of_beyond {s : State} (hs : Inv s) (h : 32768 ≤ s.pc.toNat) : s.pc = 32768 :=
  BitVec.eq_of_toNat_eq (Nat.le_antisymm hs.pc h)

/-- Settles O13: beyond Memory no word is there to decode, and the fault of that fetch names the PC. -/
theorem opcodeFetch : Obligations.OpcodeFetch := by
  intro s
  refine ⟨fun hrun hpc => ?_, fun a ha => fetchWord_eq_ok.mpr ⟨a, ha, rfl⟩, Inv.pc_eq_of_beyond⟩
  have hd : decode s.fetched = .error .truncated := by
    rw [fetched_of_pc_beyond hpc, decode]
  rw [step_of_decode_error hrun hd, fetchFault_of_pc_beyond hpc, State.takeFault]

end Sys2Proof.Machine
end

section
/-! SUPPORT. Register move and stack: set, push and pop (spec/42_register_stack.md R140-R143). -/

namespace Sys2Proof.Machine

/-! ### The two-operand form -/

/-- Resolves a, b in this order, computes, writes the destination, and advances by 3: the shape that set (R140) shares
with not (R157). -/
def twoOperand (f : Word → Word) (a b : Operand) (s : State) : Attempt State := do
  let i ← destination a
  let x ← value s b
  .ok ((s.writeReg i (f x)).complete (s.pc + 3))

/-- The two-operand form completes when a and b resolve. -/
theorem twoOperand_eq_ok {f : Word → Word} {a b : Operand} {s t : State} :
    twoOperand f a b s = .ok t ↔
      ∃ i x, destination a = .ok i ∧ value s b = .ok x ∧ t = (s.writeReg i (f x)).complete (s.pc + 3) := by
  simp only [twoOperand, bind_eq_ok, Except.ok.injEq]
  constructor
  · rintro ⟨i, hi, x, hx, rfl⟩
    exact ⟨i, x, hi, hx, rfl⟩
  · rintro ⟨i, x, hi, hx, rfl⟩
    exact ⟨i, hi, x, hx, rfl⟩

/-- The two-operand form raises the fault of a, or else that of b. -/
theorem twoOperand_eq_error {f : Word → Word} {a b : Operand} {s : State} {e : Raise} :
    twoOperand f a b s = .error e ↔
      destination a = .error e ∨ ∃ i, destination a = .ok i ∧ value s b = .error e := by
  simp [twoOperand, bind_eq_error]

/-- An instruction of format F2 that executes as the two-operand form meets the whole rule. -/
theorem twoOperandRule_of_exec {op : Word} {mk : Operand → Operand → Instr} {f : Word → Nat} {g : Word → Word}
    (hwords : ∀ a b, encode (mk a b) = [op, a.toWord, b.toWord])
    (hexec : ∀ a b s, exec (mk a b) s = commit s (twoOperand g a b s))
    (hg : ∀ x, g x = BitVec.ofNat 16 (f x)) : TwoOperandRule op mk f := by
  intro s a b
  rw [hexec]
  refine ⟨hwords a b, fun e ha => ?_, fun i e ha hb => ?_, fun i x ha hb => ?_⟩
  · rw [twoOperand_eq_error.mpr (.inl ha), commit_error]
  · rw [twoOperand_eq_error.mpr (.inr ⟨i, ha, hb⟩), commit_error]
  · rw [twoOperand_eq_ok.mpr ⟨i, x, ha, hb, rfl⟩, commit_ok, hg]
    rfl

theorem exec_set (a b : Operand) (s : State) : exec (.set a b) s = commit s (twoOperand id a b s) := rfl

/-! ### push and pop, one lemma per case -/

theorem exec_push (a : Operand) (s : State) : exec (.push a) s = execPush a s := rfl

theorem exec_pop (a : Operand) (s : State) : exec (.pop a) s = execPop a s := rfl

/-- With room on the stack a push completes (R141). -/
theorem exec_push_of_room {s : State} {a : Operand} {v : Word} (hv : value s a = .ok v) (hroom : hasRoom s) :
    exec (.push a) s = .next ((s.appendTop v).complete (s.pc + 2)) := by
  have hpush : s.push v = .ok (s.appendTop v) := push_eq_ok.mpr ⟨stackFull_eq_false.mpr hroom, rfl⟩
  simp [exec_push, execPush, hv, hpush]

theorem exec_pop_of_destination_error {s : State} {a : Operand} {e : Raise} (ha : destination a = .error e) :
    exec (.pop a) s = .next (s.takeFault e) := by
  simp [exec_pop, execPop, ha]

/-- A pop looks at the stack after the destination, and an empty one raises (R142). -/
theorem exec_pop_of_empty {s : State} {a : Operand} {i : RegIndex} (ha : destination a = .ok i)
    (hempty : s.stack = []) : exec (.pop a) s = .next (s.takeFault ⟨.stackUnderflow, 0⟩) := by
  have htop : s.top = .error ⟨.stackUnderflow, 0⟩ := top_eq_error.mpr ⟨hempty, rfl⟩
  simp [exec_pop, execPop, ha, htop]

/-- A pop moves the top word into the register (R142). -/
theorem exec_pop_of_concat {s : State} {a : Operand} {i : RegIndex} {below : List Word} {v : Word}
    (ha : destination a = .ok i) (hstack : s.stack = below ++ [v]) :
    exec (.pop a) s = .next ((s.dropTop.writeReg i v).complete (s.pc + 2)) := by
  have htop : s.top = .ok v := top_eq_ok.mpr (by simp [hstack])
  simp [exec_pop, execPop, ha, htop]

/-- Without its top word, the stack is the words below it. -/
theorem dropTop_of_concat {s : State} {below : List Word} {v : Word} (hstack : s.stack = below ++ [v]) :
    s.dropTop = { s with stack := below } := by
  rw [State.dropTop, hstack, List.dropLast_concat]

/-! ### The obligations of the register and stack chapter -/

/-- Settles O21: set is the two-operand form that copies the value as it stands. -/
theorem setRule : Obligations.SetRule :=
  twoOperandRule_of_exec (fun _ _ => rfl) exec_set (fun x => by simp)

/-- Settles O23, one case of pop for each clause. -/
theorem popRule : Obligations.PopRule := by
  intro s a
  refine ⟨rfl, fun e => exec_pop_of_destination_error, fun i => exec_pop_of_empty, fun i below v ha hstack => ?_⟩
  rw [exec_pop_of_concat ha hstack, dropTop_of_concat hstack]
  rfl

/-- Settles O24: after the push the stack is the old one with v on top, which is the word that the pop takes. -/
theorem pushPopRoundTrip : Obligations.PushPopRoundTrip := by
  intro s a v r hv hroom
  let t := (s.appendTop v).complete (s.pc + 2)
  have htop : t.stack = s.stack ++ [v] := rfl
  have hpush : exec (.push a) s = .next t := exec_push_of_room hv hroom
  have hpop := exec_pop_of_concat (destination_register r) htop
  have hback : t.dropTop.stack = s.stack := by rw [dropTop_of_concat htop]
  exact ⟨t, _, hpush, hpop, Vector.getElem_set_self r.isLt, hback, congrArg List.length hback⟩

end Sys2Proof.Machine
end

section
/-! SUPPORT. Comparison, arithmetic and logic: eq, gt, add, mult and not, and the laws of the results
(spec/43_alu.md R150-R153, R157, R160). -/

namespace Sys2Proof.Machine

/-! ### The three-operand form, for every computation -/

/-- An instruction of format F3 that executes as the three-operand form raises its operands' faults in the order
a, b, c (R90). -/
theorem threeOperandFaults_of_exec {op : Word} {mk : Operand → Operand → Operand → Instr}
    {g : Word → Word → Attempt Word}
    (hwords : ∀ a b c, encode (mk a b c) = [op, a.toWord, b.toWord, c.toWord])
    (hexec : ∀ a b c s, exec (mk a b c) s = commit s (threeOperand g a b c s)) : ThreeOperandFaults op mk := by
  intro s a b c
  rw [hexec]
  refine ⟨hwords a b c, fun e ha => ?_, fun i e ha hb => ?_, fun i x e ha hb hc => ?_⟩
  · rw [threeOperand_eq_error.mpr (.inl ha), commit_error]
  · rw [threeOperand_eq_error.mpr (.inr ⟨i, ha, .inl hb⟩), commit_error]
  · rw [threeOperand_eq_error.mpr (.inr ⟨i, ha, .inr ⟨x, hb, .inl hc⟩⟩), commit_error]

/-- Where the computation gives the word of a number, the three-operand form writes that word. -/
theorem threeOperandResult_of_exec {mk : Operand → Operand → Operand → Instr} {g : Word → Word → Attempt Word}
    {dom : Word → Word → Prop} {f : Word → Word → Nat}
    (hexec : ∀ a b c s, exec (mk a b c) s = commit s (threeOperand g a b c s))
    (hg : ∀ x y, dom x y → g x y = .ok (BitVec.ofNat 16 (f x y))) : ThreeOperandResult mk dom f := by
  intro s a b c i x y ha hb hc hdom
  rw [hexec, threeOperand_eq_ok.mpr ⟨i, x, y, _, ha, hb, hc, hg x y hdom, rfl⟩]
  rfl

/-- An instruction of format F3 whose computation never raises meets the whole rule. -/
theorem threeOperandRule_of_exec {op : Word} {mk : Operand → Operand → Operand → Instr} {f : Word → Word → Nat}
    {g : Word → Word → Word}
    (hwords : ∀ a b c, encode (mk a b c) = [op, a.toWord, b.toWord, c.toWord])
    (hexec : ∀ a b c s, exec (mk a b c) s = commit s (threeOperand (fun x y => .ok (g x y)) a b c s))
    (hg : ∀ x y, g x y = BitVec.ofNat 16 (f x y)) : ThreeOperandRule op mk f :=
  ⟨threeOperandFaults_of_exec hwords hexec,
    threeOperandResult_of_exec hexec fun x y _ => congrArg Except.ok (hg x y)⟩

/-! ### The form each instruction executes as -/

theorem exec_eq (a b c : Operand) (s : State) :
    exec (.eq a b c) s = commit s (threeOperand (fun x y => .ok (aluEq x y)) a b c s) := rfl

theorem exec_gt (a b c : Operand) (s : State) :
    exec (.gt a b c) s = commit s (threeOperand (fun x y => .ok (aluGt x y)) a b c s) := rfl

theorem exec_add (a b c : Operand) (s : State) :
    exec (.add a b c) s = commit s (threeOperand (fun x y => .ok (aluAdd x y)) a b c s) := rfl

theorem exec_mult (a b c : Operand) (s : State) :
    exec (.mult a b c) s = commit s (threeOperand (fun x y => .ok (aluMult x y)) a b c s) := rfl

theorem exec_mod (a b c : Operand) (s : State) :
    exec (.mod a b c) s = commit s (threeOperand aluMod a b c s) := rfl

theorem exec_not (a b : Operand) (s : State) : exec (.not a b) s = commit s (twoOperand aluNot a b s) := rfl

/-- A mod whose operands resolve raises DivideByZero when the divisor is 0 (R154). -/
theorem exec_mod_by_zero {s : State} {a b c : Operand} {i : RegIndex} {x : Word} (ha : destination a = .ok i)
    (hb : value s b = .ok x) (hc : value s c = .ok 0) :
    exec (.mod a b c) s = .next (s.takeFault ⟨.divideByZero, 0⟩) := by
  have hmod : aluMod x 0 = .error ⟨.divideByZero, 0⟩ := aluMod_eq_error.mpr ⟨rfl, rfl⟩
  rw [exec_mod, threeOperand_eq_error.mpr (.inr ⟨i, ha, .inr ⟨x, hb, .inr ⟨0, hc, hmod⟩⟩⟩), commit_error]

/-! ### The results as numbers -/

/-- The truth word of a proposition is the word of 1 or 0. -/
theorem truth_decide (p : Prop) [Decidable p] : truth (decide p) = BitVec.ofNat 16 (if p then 1 else 0) := by
  by_cases hp : p
  · simp [truth, hp]
  · simp [truth, hp]

theorem aluAdd_toNat (x y : Word) : (aluAdd x y).toNat = (x.toNat + y.toNat) % 32768 := clamp15_toNat _

theorem aluMult_toNat (x y : Word) : (aluMult x y).toNat = (x.toNat * y.toNat) % 32768 := clamp15_toNat _

theorem aluNot_eq_ofNat (x : Word) : aluNot x = BitVec.ofNat 16 (32767 - x.toNat % 32768) := by
  rw [← aluNot_toNat, BitVec.ofNat_toNat, BitVec.setWidth_eq]

/-! ### The laws of the results (R160) -/

theorem aluAdd_comm (x y : Word) : aluAdd x y = aluAdd y x := by
  rw [aluAdd, aluAdd, Nat.add_comm]

theorem aluMult_comm (x y : Word) : aluMult x y = aluMult y x := by
  rw [aluMult, aluMult, Nat.mul_comm]

theorem aluAnd_comm (x y : Word) : aluAnd x y = aluAnd y x := by
  rw [aluAnd, aluAnd, BitVec.and_comm]

theorem aluOr_comm (x y : Word) : aluOr x y = aluOr y x := by
  rw [aluOr, aluOr, BitVec.or_comm]

theorem aluEq_comm (x y : Word) : aluEq x y = aluEq y x := by
  simp only [aluEq, eq_comm]

/-- Reducing the inner sum first does not change the outer one. -/
theorem aluAdd_assoc (x y z : Word) : aluAdd (aluAdd x y) z = aluAdd x (aluAdd y z) := by
  apply BitVec.eq_of_toNat_eq
  simp only [aluAdd_toNat, Nat.mod_add_mod, Nat.add_mod_mod, Nat.add_assoc]

/-- Reducing the inner product first does not change the outer one. -/
theorem aluMult_assoc (x y z : Word) : aluMult (aluMult x y) z = aluMult x (aluMult y z) := by
  apply BitVec.eq_of_toNat_eq
  simp only [aluMult_toNat, Nat.mod_mul_mod, Nat.mul_mod_mod, Nat.mul_assoc]

theorem aluNot_aluNot {x : Word} (h : x.toNat ≤ 32767) : aluNot (aluNot x) = x := by
  apply BitVec.eq_of_toNat_eq
  rw [aluNot_toNat, aluNot_toNat]
  omega

/-- Subtraction mod 32768 is add of the negation. -/
theorem aluAdd_negation (x y : Word) (hy : y.toNat ≤ 32767) :
    ((aluAdd x (BitVec.ofNat 16 ((32768 - y.toNat) % 32768))).toNat : Int) =
      ((x.toNat : Int) - (y.toNat : Int)) % 32768 := by
  rw [aluAdd_toNat, BitVec.toNat_ofNat]
  omega

/-- The negation mod 32768 is add of not and 1. -/
theorem aluAdd_aluNot_one {y : Word} (hy : y.toNat ≤ 32767) :
    (aluAdd (aluNot y) 1).toNat = (32768 - y.toNat) % 32768 := by
  have hone : (1 : Word).toNat = 1 := rfl
  rw [aluAdd_toNat, aluNot_toNat, hone]
  omega

/-! ### Literal operands -/

/-- A three-operand rule, read at a register and two literals. -/
theorem ThreeOperandRule.of_literals {op : Word} {mk : Operand → Operand → Operand → Instr} {f : Word → Word → Nat}
    (h : ThreeOperandRule op mk f) (s : State) (i : RegIndex) (x y : BitVec 15) :
    exec (mk (.register i) (.literal x) (.literal y)) s = .next { s with
      regs := s.regs.set i (BitVec.ofNat 16 (f (x.setWidth 16) (y.setWidth 16))), pc := s.pc + 4, waitIn := false } :=
  h.2 s _ _ _ i _ _ rfl rfl rfl trivial

/-! ### The obligations of the arithmetic chapter -/

/-- Settles O25: eq is the three-operand form of the truth word of equality. -/
theorem eqRule : Obligations.EqRule :=
  threeOperandRule_of_exec (fun _ _ _ => rfl) exec_eq (fun _ _ => truth_decide _)

/-- Settles O26: gt is the three-operand form of the truth word of the unsigned order. -/
theorem gtRule : Obligations.GtRule :=
  threeOperandRule_of_exec (fun _ _ _ => rfl) exec_gt (fun _ _ => truth_decide _)

/-- Settles O27: add is the three-operand form of the reduced sum. -/
theorem addRule : Obligations.AddRule :=
  threeOperandRule_of_exec (fun _ _ _ => rfl) exec_add (fun _ _ => rfl)

/-- Settles O28: mult is the three-operand form of the reduced product. -/
theorem multRule : Obligations.MultRule :=
  threeOperandRule_of_exec (fun _ _ _ => rfl) exec_mult (fun _ _ => rfl)

/-- Settles O32: not is the two-operand form of the 15-bit complement. -/
theorem notRule : Obligations.NotRule :=
  twoOperandRule_of_exec (fun _ _ => rfl) exec_not aluNot_eq_ofNat

/-- Settles O33: the rules of add and mult at literals, then one law of the results for each clause. -/
theorem arithmeticLaws : Obligations.ArithmeticLaws := by
  refine ⟨fun s i x y => ?_, fun x y => ?_, fun x y z => ⟨aluAdd_assoc x y z, aluMult_assoc x y z⟩,
    fun s i b c x => exec_mod_by_zero (destination_register i), fun x => aluNot_aluNot,
    fun x y _ hy => ⟨aluAdd_negation x y hy, aluAdd_aluNot_one hy⟩⟩
  · have toNat_literal (v : BitVec 15) : (v.setWidth 16).toNat = v.toNat :=
      BitVec.toNat_setWidth_of_le (by decide)
    have hadd := addRule.of_literals s i x y
    have hmult := multRule.of_literals s i x y
    rw [toNat_literal, toNat_literal] at hadd hmult
    exact ⟨hadd, hmult⟩
  · exact ⟨aluAdd_comm x y, aluMult_comm x y, aluAnd_comm x y, aluOr_comm x y, aluEq_comm x y⟩

end Sys2Proof.Machine
end

section
/-! SUPPORT. Control transfer: the target check and jmp (spec/44_control_transfer.md R171, R172). -/

namespace Sys2Proof.Machine

/-! ### The target check (R171) -/

/-- A program address passes the target check as it stands. -/
theorem checkTarget_of_le {t : Word} (h : t.toNat ≤ 32767) : checkTarget t = .ok t :=
  checkTarget_eq_ok.mpr ⟨Nat.lt_succ_of_le h, rfl⟩

theorem checkTarget_of_ge {t : Word} (h : 32768 ≤ t.toNat) : checkTarget t = .error ⟨.invalidJumpTarget, t⟩ :=
  checkTarget_eq_error.mpr ⟨h, rfl⟩

/-! ### jmp -/

theorem exec_jmp (a : Operand) (s : State) : exec (.jmp a) s = execJmp a s := rfl

theorem exec_jmp_of_value_error {s : State} {a : Operand} {e : Raise} (ha : value s a = .error e) :
    exec (.jmp a) s = .next (s.takeFault e) := by
  simp [exec_jmp, execJmp, ha]

/-- A jmp to a program address completes there (R172). -/
theorem exec_jmp_of_target {s : State} {a : Operand} {t : Word} (ha : value s a = .ok t) (ht : t.toNat ≤ 32767) :
    exec (.jmp a) s = .next (s.complete t) := by
  simp [exec_jmp, execJmp, ha, checkTarget_of_le ht]

theorem exec_jmp_of_invalid_target {s : State} {a : Operand} {t : Word} (ha : value s a = .ok t)
    (ht : 32768 ≤ t.toNat) : exec (.jmp a) s = .next (s.takeFault ⟨.invalidJumpTarget, t⟩) := by
  simp [exec_jmp, execJmp, ha, checkTarget_of_ge ht]

/-- Settles O35, one case of jmp for each clause: the operand first, then the target check on its value. -/
theorem jmpRule : Obligations.JmpRule := fun _ _ =>
  ⟨rfl, fun _ => exec_jmp_of_value_error, fun _ => exec_jmp_of_target, fun _ => exec_jmp_of_invalid_target⟩

end Sys2Proof.Machine
end

section
/-! SUPPORT. wmem: the word that is written reads back (spec/45_memory_access.md R181). -/

namespace Sys2Proof.Machine

/-- Memory gives a written word back, in canonical form: the low byte survives the write of the high one, which lies at
another offset, and the two make the word again. -/
theorem Memory.readWord_writeWord_same {m : Memory} {a : Addr} {v : Word} (h : Memory.wf m) :
    (m.writeWord a v).readWord a = v := by
  have ha := a.isLt
  have hlow : Memory.wf (m.writeByte (2 * a.val) (lowByte v)) := Memory.writeByte_wf (by omega) h
  rw [Memory.readWord, Memory.writeWord, Memory.readByte_writeByte_of_ne (Nat.ne_of_lt (Nat.lt_succ_self _)),
    Memory.readByte_writeByte_same h, Memory.readByte_writeByte_same hlow, wordOfBytes_bytes]

/-! ### wmem, one lemma per case -/

theorem exec_wmem (a b : Operand) (s : State) : exec (.wmem a b) s = execWmem a b s := rfl

theorem exec_wmem_of_address_error {s : State} {a b : Operand} {e : Raise} (ha : memAddress s a = .error e) :
    exec (.wmem a b) s = .next (s.takeFault e) := by
  simp [exec_wmem, execWmem, ha]

theorem exec_wmem_of_value_error {s : State} {a b : Operand} {addr : Addr} {e : Raise}
    (ha : memAddress s a = .ok addr) (hb : value s b = .error e) :
    exec (.wmem a b) s = .next (s.takeFault e) := by
  simp [exec_wmem, execWmem, ha, hb]

/-- A wmem whose operands resolve stores the word and completes (R181). -/
theorem exec_wmem_of_ok {s : State} {a b : Operand} {addr : Addr} {v : Word} (ha : memAddress s a = .ok addr)
    (hb : value s b = .ok v) : exec (.wmem a b) s = .next ((s.storeWord addr v).complete (s.pc + 3)) := by
  simp [exec_wmem, execWmem, ha, hb]

/-- Settles O41, one case of wmem for each clause; the new memory is the old one with the word written. -/
theorem wmemRule : Obligations.WmemRule := by
  intro s a b
  refine ⟨rfl, fun e => exec_wmem_of_address_error, fun addr e => exec_wmem_of_value_error, fun addr v ha hb => ?_⟩
  exact ⟨s.mem.writeWord addr v, exec_wmem_of_ok ha hb, Memory.readWord_writeWord_same,
    fun n => Memory.readByte_writeWord_of_ne⟩

end Sys2Proof.Machine
end

section
/-! SUPPORT. Console: out (spec/46_io.md R190, R192). -/

namespace Sys2Proof.Machine

/-- Bits 7:0 of a word are its value mod 256. -/
theorem lowByte_eq_ofNat (v : Word) : lowByte v = BitVec.ofNat 8 (v.toNat % 256) := by
  apply BitVec.eq_of_toNat_eq
  rw [lowByte, BitVec.extractLsb'_toNat, Nat.shiftRight_zero, BitVec.toNat_ofNat, Nat.mod_mod]

/-! ### out, one lemma per case -/

theorem exec_out (a : Operand) (s : State) : exec (.out a) s = execOut a s := rfl

theorem exec_out_of_value_error {s : State} {a : Operand} {e : Raise} (ha : value s a = .error e) :
    exec (.out a) s = .next (s.takeFault e) := by
  simp [exec_out, execOut, ha]

/-- An out whose operand resolves emits the low byte and completes (R190). -/
theorem exec_out_of_ok {s : State} {a : Operand} {v : Word} (ha : value s a = .ok v) :
    exec (.out a) s = .next ((s.emit (lowByte v)).complete (s.pc + 2)) := by
  simp [exec_out, execOut, ha]

/-- Settles O44, one case of out for each clause; the emitted low byte is the value mod 256. -/
theorem outRule : Obligations.OutRule := by
  intro s a
  refine ⟨rfl, fun e => exec_out_of_value_error, fun v ha => ?_⟩
  rw [← lowByte_eq_ofNat]
  exact exec_out_of_ok ha

end Sys2Proof.Machine
end

section
/-! SUPPORT. The decoder and the encoder undo each other (spec/30_encoding.md R80-R82, R92). -/

namespace Sys2Proof

/-! ### Decoding the words of well-formed operands -/

theorem decodeF1_toWord {mk : Operand → Instr} {a : Operand} (h : [a].all Operand.wf = true) (rest : List Word) :
    decodeF1 mk (a.toWord :: rest) = .ok (mk a, rest) := by
  simp only [List.all_cons, List.all_nil, Bool.and_true] at h
  rw [decodeF1, Operand.ofWord_toWord h]

theorem decodeF2_toWord {mk : Operand → Operand → Instr} {a b : Operand} (h : [a, b].all Operand.wf = true)
    (rest : List Word) : decodeF2 mk (a.toWord :: b.toWord :: rest) = .ok (mk a b, rest) := by
  simp only [List.all_cons, List.all_nil, Bool.and_true, Bool.and_eq_true] at h
  rw [decodeF2, Operand.ofWord_toWord h.1, Operand.ofWord_toWord h.2]

theorem decodeF3_toWord {mk : Operand → Operand → Operand → Instr} {a b c : Operand}
    (h : [a, b, c].all Operand.wf = true) (rest : List Word) :
    decodeF3 mk (a.toWord :: b.toWord :: c.toWord :: rest) = .ok (mk a b c, rest) := by
  simp only [List.all_cons, List.all_nil, Bool.and_true, Bool.and_eq_true] at h
  obtain ⟨ha, hb, hc⟩ := h
  rw [decodeF3, Operand.ofWord_toWord ha, Operand.ofWord_toWord hb, Operand.ofWord_toWord hc]

/-- Settles O1: the opcode word selects the format, and each format reads its operand words back. -/
theorem decodeOfEncode : Obligations.DecodeOfEncode := by
  intro i rest h
  cases i with
  | halt | ret | noop => rfl
  | push a | pop a | jmp a | call a | out a | inChar a => exact decodeF1_toWord h rest
  | set a b | jt a b | jf a b | not a b | rmem a b | wmem a b => exact decodeF2_toWord h rest
  | eq a b c | gt a b c | add a b c | mult a b c | mod a b c | and a b c | or a b c => exact decodeF3_toWord h rest

/-! ### What the decoder reads -/

/-- What decoding `ws` after the opcode word `op` answers for an instruction of n operands: with fewer than n words it
is truncated; else it is the instruction with that opcode and the first n words as its operands, and the other words
are left. -/
def ReadsOperands (op : Word) (n : Nat) (ws : List Word) (d : Decoded) : Prop :=
  (ws.length < n → d = .error .truncated) ∧
  (n ≤ ws.length → ∃ i : Instr,
    i.opcode = op ∧ i.operands = (ws.take n).map Operand.ofWord ∧ d = .ok (i, ws.drop n))

theorem readsOperands_zero {op : Word} {i : Instr} (hop : i.opcode = op) (hos : i.operands = []) (ws : List Word) :
    ReadsOperands op 0 ws (.ok (i, ws)) :=
  ⟨fun h => absurd h (Nat.not_lt_zero _), fun _ => ⟨i, hop, hos, rfl⟩⟩

theorem readsOperands_decodeF1 {op : Word} {mk : Operand → Instr} (hop : ∀ a, (mk a).opcode = op)
    (hos : ∀ a, (mk a).operands = [a]) (ws : List Word) : ReadsOperands op 1 ws (decodeF1 mk ws) := by
  match ws with
  | [] => simp [ReadsOperands, decodeF1]
  | a :: rest => simp [ReadsOperands, decodeF1, hop, hos]

theorem readsOperands_decodeF2 {op : Word} {mk : Operand → Operand → Instr} (hop : ∀ a b, (mk a b).opcode = op)
    (hos : ∀ a b, (mk a b).operands = [a, b]) (ws : List Word) : ReadsOperands op 2 ws (decodeF2 mk ws) := by
  match ws with
  | [] | [_] => simp [ReadsOperands, decodeF2]
  | a :: b :: rest => simp [ReadsOperands, decodeF2, hop, hos]

theorem readsOperands_decodeF3 {op : Word} {mk : Operand → Operand → Operand → Instr}
    (hop : ∀ a b c, (mk a b c).opcode = op) (hos : ∀ a b c, (mk a b c).operands = [a, b, c]) (ws : List Word) :
    ReadsOperands op 3 ws (decodeF3 mk ws) := by
  match ws with
  | [] | [_] | [_, _] => simp [ReadsOperands, decodeF3]
  | a :: b :: c :: rest => simp [ReadsOperands, decodeF3, hop, hos]

/-- After a legal opcode word the decoder reads as many operands as the table gives the opcode (R82, R85, R92). -/
theorem readsOperands_decode {op : Word} (hop : op.toNat ≤ 21) (ws : List Word) :
    ReadsOperands op (operandKinds op).length ws (decode (op :: ws)) := by
  obtain ⟨n, hn, rfl⟩ : ∃ n ≤ 21, op = BitVec.ofNat 16 n := ⟨op.toNat, hop, by simp⟩
  match n, hn with
  | 0, _ | 18, _ | 21, _ => exact readsOperands_zero rfl rfl ws
  | 2, _ | 3, _ | 6, _ | 17, _ | 19, _ | 20, _ =>
    exact readsOperands_decodeF1 (fun _ => by rfl) (fun _ => by rfl) ws
  | 1, _ | 7, _ | 8, _ | 14, _ | 15, _ | 16, _ =>
    exact readsOperands_decodeF2 (fun _ _ => by rfl) (fun _ _ => by rfl) ws
  | 4, _ | 5, _ | 9, _ | 10, _ | 11, _ | 12, _ | 13, _ =>
    exact readsOperands_decodeF3 (fun _ _ _ => by rfl) (fun _ _ _ => by rfl) ws
  | n + 22, h => omega

/-- An instruction whose operands are the reading of words encodes to its opcode word and those words. -/
theorem encode_of_operands_ofWord {i : Instr} {ws : List Word} (h : i.operands = ws.map Operand.ofWord) :
    encode i = i.opcode :: ws := by
  have hws : Operand.toWord ∘ Operand.ofWord = id := funext Operand.toWord_ofWord
  rw [encode, h, List.map_map, hws, List.map_id]

/-- An instruction whose operands are the reading of words is well-formed. -/
theorem wf_of_operands_ofWord {i : Instr} {ws : List Word} (h : i.operands = ws.map Operand.ofWord) :
    i.wf = true := by
  simp [Instr.wf, h, Operand.wf_ofWord]

/-- Settles O2: the opcode word is legal and enough words follow it, or nothing would have been decoded; then the
instruction's operands are the reading of the words after the opcode. -/
theorem encodeOfDecode : Obligations.EncodeOfDecode := by
  intro words i rest h
  cases words with
  | nil => simp [decode] at h
  | cons op ws =>
    have hop : op.toNat ≤ 21 := by
      by_contra hill
      simp [decode_illegal (Nat.lt_of_not_le hill)] at h
    obtain ⟨hshort, hlong⟩ := readsOperands_decode hop ws
    rcases Nat.lt_or_ge ws.length (operandKinds op).length with hlt | hge
    · simp [hshort hlt] at h
    · obtain ⟨j, rfl, hos, hd⟩ := hlong hge
      obtain ⟨rfl, rfl⟩ : j = i ∧ _ = rest := by simpa [hd] using h
      exact ⟨wf_of_operands_ofWord hos, by simp [encode_of_operands_ofWord hos]⟩

/-- Settles O3: the decoder evaluated on each word sequence the spec writes out. -/
theorem wordsOfTheSpecDecode : Obligations.WordsOfTheSpecDecode := by
  unfold Obligations.WordsOfTheSpecDecode
  decide

end Sys2Proof
end

section
/-! SUPPORT. The few kinds of effect an instruction can have, and the ways its execution ends: what the frame
statements and the invariant are derived from (spec/40_fetch_decode_execute.md R116-R122). -/

namespace Sys2Proof.Machine

/-! ### Kinds of effect -/

/-- What a completing instruction does to the state before the PC moves: it writes nothing, the register its R operand
names, a word of Memory, the stack, or the console. -/
inductive Effect : Instr → State → State → Prop where
  | nothing {i : Instr} {s : State} (hdest : destinationOperand i = none) : Effect i s s
  | write {i : Instr} {s : State} {r : RegIndex} {v : Word} (hdest : destinationOperand i = some (.register r))
      (hclamp : clampedResult i = true → v.toNat < 32768) : Effect i s (s.writeReg r v)
  | store {s : State} {a b : Operand} {addr : Addr} {v : Word} (haddr : memAddress s a = .ok addr) :
      Effect (.wmem a b) s (s.storeWord addr v)
  | push {s : State} {a : Operand} {v : Word} (hv : value s a = .ok v) (hroom : s.stackFull = false) :
      Effect (.push a) s (s.appendTop v)
  | call {s : State} {a : Operand} (hroom : s.stackFull = false) : Effect (.call a) s (s.appendTop (s.pc + 2))
  | pop {s : State} {r : RegIndex} {v : Word} (htop : s.stack = s.stack.dropLast ++ [v]) :
      Effect (.pop (.register r)) s (s.dropTop.writeReg r v)
  | ret {s : State} {v : Word} (htop : s.stack = s.stack.dropLast ++ [v]) : Effect .ret s s.dropTop
  | emit {s : State} {a : Operand} {v : Word} (hv : value s a = .ok v) : Effect (.out a) s (s.emit (lowByte v))
  | receive {s : State} {r : RegIndex} {c : Byte} {rest : List InputReply} (hinput : s.input = .char c :: rest) :
      Effect (.inChar (.register r)) s (s.dropReply.writeReg r (c.setWidth 16))

/-- Where the PC of a completing instruction goes: past the instruction's words, or, for one that sets the PC, to a
program address (R26, R118). -/
def NextPc (i : Instr) (s : State) (next : Word) : Prop :=
  (opcodeSetsPc s i = false ∧ next = s.pc + BitVec.ofNat 16 i.length) ∨
  (opcodeSetsPc s i = true ∧ next.toNat < 32768)

theorem nextPc_past {i : Instr} {s : State} (h : opcodeSetsPc s i = false) :
    NextPc i s (s.pc + BitVec.ofNat 16 i.length) := .inl ⟨h, rfl⟩

theorem nextPc_target {i : Instr} {s : State} {next : Word} (h : opcodeSetsPc s i = true)
    (hnext : next.toNat < 32768) : NextPc i s next := .inr ⟨h, hnext⟩

/-- The ways executing an instruction ends: it completes, halts, holds, or takes a fault (R122). -/
inductive Ends (i : Instr) (s : State) : State → Prop where
  | complete {u : State} {next : Word} (heffect : Effect i s u) (hnext : NextPc i s next) : Ends i s (u.complete next)
  | halt (hi : i = .halt) : Ends i s s.halt
  | hold {r : RegIndex} (hi : i = .inChar (.register r)) (hinput : s.input = []) : Ends i s s.hold
  | fault {e : Raise} (hraises : Raises i s e) : Ends i s (s.takeFault e)

/-- A jt sets the PC iff its condition is not 0, a jf iff it is 0 (R173, R174). -/
theorem opcodeSetsPc_jt {s : State} {a b : Operand} {x : Word} (h : value s a = .ok x) :
    opcodeSetsPc s (.jt a b) = decide (x ≠ 0) := by
  simp [opcodeSetsPc, h]

theorem opcodeSetsPc_jf {s : State} {a b : Operand} {x : Word} (h : value s a = .ok x) :
    opcodeSetsPc s (.jf a b) = decide (x = 0) := by
  simp [opcodeSetsPc, h]

/-- The state in which an instruction completes is one of the ways it ends. -/
theorem Completes.ends {i : Instr} {s t : State} (h : Completes i s t) : Ends i s t := by
  cases i with
  | halt =>
    obtain rfl : t = s.halt := h
    exact .halt rfl
  | noop =>
    obtain rfl : t = s.complete (s.pc + 1) := h
    exact .complete (.nothing rfl) (nextPc_past rfl)
  | set a b | rmem a b =>
    obtain ⟨r, v, rfl, -, rfl⟩ := h
    exact .complete (.write rfl nofun) (nextPc_past rfl)
  | eq a b c | gt a b c =>
    obtain ⟨r, x, y, rfl, -, -, rfl⟩ := h
    exact .complete (.write rfl nofun) (nextPc_past rfl)
  | add a b c | mult a b c | and a b c | or a b c =>
    obtain ⟨r, x, y, rfl, -, -, rfl⟩ := h
    exact .complete (.write rfl fun _ => clamp15_lt _) (nextPc_past rfl)
  | mod a b c =>
    obtain ⟨r, x, y, rfl, -, -, -, rfl⟩ := h
    exact .complete (.write rfl fun _ => clamp15_lt _) (nextPc_past rfl)
  | not a b =>
    obtain ⟨r, x, rfl, -, rfl⟩ := h
    have hlt : (aluNot x).toNat < 32768 := by
      rw [aluNot_toNat]
      omega
    exact .complete (.write rfl fun _ => hlt) (nextPc_past rfl)
  | wmem a b =>
    obtain ⟨addr, v, haddr, -, rfl⟩ := h
    exact .complete (.store haddr) (nextPc_past rfl)
  | push a =>
    obtain ⟨v, hv, hroom, rfl⟩ := h
    exact .complete (.push hv hroom) (nextPc_past rfl)
  | pop a =>
    obtain ⟨r, v, rfl, htop, rfl⟩ := h
    exact .complete (.pop htop) (nextPc_past rfl)
  | out a =>
    obtain ⟨v, hv, rfl⟩ := h
    exact .complete (.emit hv) (nextPc_past rfl)
  | inChar a =>
    obtain ⟨r, rfl, ⟨hinput, rfl⟩ | ⟨c, rest, hinput, rfl⟩⟩ := h
    · exact .hold rfl hinput
    · exact .complete (.receive hinput) (nextPc_past rfl)
  | jmp a =>
    obtain ⟨v, -, hv, rfl⟩ := h
    exact .complete (.nothing rfl) (nextPc_target rfl hv)
  | jt a b =>
    obtain ⟨x, v, hx, -, ⟨h0, hv, rfl⟩ | ⟨h0, rfl⟩⟩ := h
    · exact .complete (.nothing rfl) (nextPc_target ((opcodeSetsPc_jt hx).trans (decide_eq_true h0)) hv)
    · exact .complete (.nothing rfl) (nextPc_past ((opcodeSetsPc_jt hx).trans (decide_eq_false (not_not_intro h0))))
  | jf a b =>
    obtain ⟨x, v, hx, -, ⟨h0, hv, rfl⟩ | ⟨h0, rfl⟩⟩ := h
    · exact .complete (.nothing rfl) (nextPc_target ((opcodeSetsPc_jf hx).trans (decide_eq_true h0)) hv)
    · exact .complete (.nothing rfl) (nextPc_past ((opcodeSetsPc_jf hx).trans (decide_eq_false h0)))
  | call a =>
    obtain ⟨v, -, hv, hroom, rfl⟩ := h
    exact .complete (.call hroom) (nextPc_target rfl hv)
  | ret =>
    obtain ⟨v, htop, hv, rfl⟩ := h
    exact .complete (.ret htop) (nextPc_target rfl hv)

/-- Executing an instruction ends in one of four ways. -/
theorem exec_ends {i : Instr} {s t : State} (h : exec i s = .next t) : Ends i s t := by
  rcases exec_cases h with hc | ⟨e, he, rfl⟩
  · exact hc.ends
  · exact .fault he

end Sys2Proof.Machine
end

section
/-! SUPPORT. The words of a step: what it runs when an instruction stands at the PC, and which fault it takes when the
words end too early (spec/40_fetch_decode_execute.md R111-R113, R119). -/

namespace Sys2Proof.Machine

/-! ### A step that runs an instruction (R111) -/

theorem step_of_decode_ok {s : State} {i : Instr} {rest : List Word} (hrun : s.run = .running)
    (hd : decode s.fetched = .ok (i, rest)) : step s = exec i s := by
  rw [step_running hrun, hd]

/-- Settles O8: the step's own equation, at words that decode. -/
theorem stepRunsDecodedInstruction : Obligations.StepRunsDecodedInstruction :=
  fun _ _ _ => step_of_decode_ok

/-- Words that stand in Memory at the PC, at most four of them, are the first that the step reads. -/
theorem fetched_of_wordsAtPc {s : State} {ws : List Word} (h : wordsAtPc s ws) (hlen : ws.length ≤ 4) :
    ∃ rest, s.fetched = ws ++ rest := by
  have hget (k : Nat) (hk : k < ws.length) : s.fetched[k]? = some ws[k] := by
    obtain ⟨a, ha, hread⟩ := fetchWord_eq_ok.mp (h k hk)
    rw [State.fetched, window_getElem? _ _ _ _ (by omega), ← ha, addressOf_val, Option.map_some, hread]
  obtain ⟨rest, hrest⟩ := List.prefix_iff_getElem?.mpr hget
  exact ⟨rest, hrest.symm⟩

/-- Settles O9: the instruction's words are the first that are read, and they decode to it whatever follows. -/
theorem stepRunsWordsInMemory : Obligations.StepRunsWordsInMemory := by
  intro s i hrun hwf hwords
  obtain ⟨rest, hrest⟩ := fetched_of_wordsAtPc hwords (by rw [encode_length]; exact i.length_le)
  exact step_of_decode_ok hrun (by rw [hrest, decodeOfEncode i rest hwf])

/-- An instruction that decodes from the words of a step lies within Memory. -/
theorem pc_add_length_le {s : State} {i : Instr} {rest : List Word} (hd : decode s.fetched = .ok (i, rest)) :
    s.pc.toNat + i.length ≤ 32768 := by
  have hlen := congrArg List.length (encodeOfDecode _ _ _ hd).2
  rw [List.length_append, encode_length, State.fetched, window_length] at hlen
  have hpos : 0 < i.length := Nat.lt_of_lt_of_le Nat.one_pos (Nat.le_add_right _ _)
  omega

/-! ### Terminal states (R119) -/

theorem step_terminal {s : State} (h : s.run ≠ .running) : step s = .next s := by
  unfold step
  split
  · rename_i hrun
    exact absurd hrun h
  · rfl
  · rfl

/-- Of any machine: where one step changes nothing, any number of them does not. -/
theorem run_of_step_self (M : Host.Core) {s : M.State} (h : M.step s = .next s) (n : Nat) : M.run n s = .next s := by
  induction n with
  | zero => rfl
  | succ n ih =>
    rw [Host.Core.run, h]
    exact ih

/-- Settles O12: a step in a terminal state changes nothing, so any number of them does not. -/
theorem terminalStatesStay : Obligations.TerminalStatesStay :=
  fun _ n h => ⟨step_terminal h, run_of_step_self core (step_terminal h) n⟩

/-! ### Words that end too early (R113) -/

/-- An illegal opcode word has no operands (R93), so an opcode word with operands is legal. -/
theorem legal_of_operandKinds_ne_nil {op : Word} (h : operandKinds op ≠ []) : op.toNat ≤ 21 := by
  by_contra hill
  refine h ?_
  unfold operandKinds
  split
  case h_20 => rfl
  all_goals omega

/-- No opcode word has more than three operands (R80). -/
theorem operandKinds_length_le (op : Word) : (operandKinds op).length ≤ 3 := by
  unfold operandKinds
  split <;> simp

/-- Where the operand words end before the operand count is met, the decoder says so (R113). -/
theorem decode_truncated {op : Word} {ops : List Word} (h : ops.length < (operandKinds op).length) :
    decode (op :: ops) = .error .truncated := by
  have hne : operandKinds op ≠ [] := List.ne_nil_of_length_pos (Nat.zero_lt_of_lt h)
  exact (readsOperands_decode (legal_of_operandKinds_ne_nil hne) ops).1 h

/-- The fault of words that end too early: the first operand there that does not resolve, or the next fetch. -/
theorem step_of_truncated {s : State} {op : Word} {ops : List Word} (hrun : s.run = .running)
    (hwords : s.fetched = op :: ops) (h : ops.length < (operandKinds op).length) :
    step s = .next (s.takeFault ((firstOperandFault s (operandKinds op) (ops.map Operand.ofWord)).getD
      ⟨.addressOutOfRange, BitVec.ofNat 16 (s.pc.toNat + (op :: ops).length)⟩)) := by
  have hd : decode s.fetched = .error .truncated := by rw [hwords, decode_truncated h]
  rw [step_of_decode_error hrun hd, fetchFault, hwords]
  rfl

/-- Settles O15: the words up to the end of Memory are all that the step reads, and they are truncated. -/
theorem operandFetchPastTheEnd : Obligations.OperandFetchPastTheEnd := by
  intro s op ops hrun hwords hend hcount
  have hfetched : s.fetched = op :: ops := by
    have hle := operandKinds_length_le op
    obtain ⟨rest, hrest⟩ := fetched_of_wordsAtPc hwords (by rw [List.length_cons]; omega)
    have hlen := congrArg List.length hrest
    rw [State.fetched, window_length, List.length_append, List.length_cons] at hlen
    rw [hrest, List.eq_nil_of_length_eq_zero (by omega : rest.length = 0), List.append_nil]
  have hpc : s.pc.toNat + (op :: ops).length = 32768 := by
    rw [List.length_cons]
    omega
  rw [step_of_truncated hrun hfetched hcount, hpc]
  refine ⟨fun hnone => ?_, fun e hsome => ?_⟩
  · rw [hnone]
    rfl
  · rw [hsome, Option.getD_some]

end Sys2Proof.Machine
end

section
/-! SUPPORT. The faults: which kinds each instruction raises, and the range of FAULT_INFO
(spec/60_exceptions.md R201-R208). -/

namespace Sys2Proof.Machine

/-! ### The first operand that does not resolve -/

/-- The first operand fault is the fault of an operand, by the kind of its position. -/
theorem operandFault_of_firstOperandFault {s : State} {ks : List OperandKind} {os : List Operand} {e : Raise}
    (h : firstOperandFault s ks os = some e) : ∃ k ∈ ks, ∃ o ∈ os, operandFault s k o = some e := by
  induction ks generalizing os with
  | nil => simp [firstOperandFault] at h
  | cons k ks ih =>
    cases os with
    | nil => simp [firstOperandFault] at h
    | cons o os =>
      cases ho : operandFault s k o with
      | some e' =>
        rw [firstOperandFault_cons_some ho] at h
        exact ⟨k, by simp, o, by simp, ho.trans h⟩
      | none =>
        rw [firstOperandFault_cons_none ho] at h
        obtain ⟨k', hk, o', ho', hf⟩ := ih h
        exact ⟨k', List.mem_cons_of_mem _ hk, o', List.mem_cons_of_mem _ ho', hf⟩

/-! ### FAULT_INFO (R204) -/

/-- Where a well-formed operand is no register, its word is outside the register range. -/
theorem toWord_not_register {o : Operand} (hwf : o.wf = true) (h : ∀ i, o ≠ .register i) :
    o.toWord.toNat ≤ 32767 ∨ 32776 ≤ o.toWord.toNat := by
  cases o with
  | literal v =>
    have hv := v.isLt
    simp only [Operand.toWord, BitVec.toNat_setWidth]
    omega
  | register i => exact absurd rfl (h i)
  | invalid w => exact .inr (of_decide_eq_true hwf)

theorem infoInRange_of_value {s : State} {o : Operand} {e : Raise} (hwf : o.wf = true)
    (h : value s o = .error e) : infoInRange e.kind e.info := by
  obtain ⟨w, rfl, rfl⟩ := value_eq_error.mp h
  have hw : 32776 ≤ w.toNat := of_decide_eq_true hwf
  exact hw

theorem infoInRange_of_operandFault {s : State} {k : OperandKind} {o : Operand} {e : Raise} (hwf : o.wf = true)
    (h : operandFault s k o = some e) : infoInRange e.kind e.info := by
  cases k with
  | value => exact infoInRange_of_value hwf (raisedBy_eq_some.mp h)
  | destination =>
    obtain ⟨hnot, rfl⟩ := destination_eq_error.mp (raisedBy_eq_some.mp h)
    exact toWord_not_register hwf hnot
  | address =>
    rcases memAddress_eq_error.mp (raisedBy_eq_some.mp h) with hv | ⟨v, -, hv, rfl⟩
    · exact infoInRange_of_value hwf hv
    · exact hv

theorem infoInRange_of_firstOperandFault {s : State} {ks : List OperandKind} {os : List Operand} {e : Raise}
    (hwf : os.all Operand.wf = true) (h : firstOperandFault s ks os = some e) : infoInRange e.kind e.info := by
  obtain ⟨k, -, o, ho, hf⟩ := operandFault_of_firstOperandFault h
  exact infoInRange_of_operandFault (List.all_eq_true.mp hwf o ho) hf

/-- What a well-formed instruction raises carries a FAULT_INFO of its kind's range. -/
theorem Raises.infoInRange {i : Instr} {s : State} {e : Raise} (hwf : i.wf = true) (h : Raises i s e) :
    infoInRange e.kind e.info := by
  rcases h with h | h
  · exact infoInRange_of_firstOperandFault hwf h
  · cases i with
    | push a | pop a =>
      obtain ⟨-, rfl⟩ := h
      rfl
    | jmp a | jt a b | jf a b =>
      obtain ⟨v, -, hv, rfl⟩ := h
      exact hv
    | mod a b c | inChar a =>
      obtain rfl := h
      rfl
    | call a =>
      obtain ⟨v, -, hv, rfl⟩ | ⟨-, rfl⟩ := h
      · exact hv
      · rfl
    | ret =>
      obtain ⟨-, rfl⟩ | ⟨v, hv, rfl⟩ := h
      · rfl
      · exact hv
    | _ => exact h.elim

/-- The decoder refuses an illegal opcode word, or fewer words than the longest instruction has. -/
theorem decode_eq_error {ws : List Word} {r : Reject} (h : decode ws = .error r) :
    (∃ op rest, ws = op :: rest ∧ 22 ≤ op.toNat ∧ r = .illegalInstruction op) ∨ (ws.length < 4 ∧ r = .truncated) := by
  cases ws with
  | nil => exact .inr ⟨by simp, by simpa [decode, eq_comm] using h⟩
  | cons op rest =>
    rcases Nat.lt_or_ge 21 op.toNat with hill | hop
    · rw [decode_illegal hill] at h
      exact .inl ⟨op, rest, rfl, hill, (Except.error.inj h).symm⟩
    · obtain ⟨hshort, hlong⟩ := readsOperands_decode hop rest
      rcases Nat.lt_or_ge rest.length (operandKinds op).length with hlt | hge
      · rw [hshort hlt] at h
        have hle := operandKinds_length_le op
        exact .inr ⟨by rw [List.length_cons]; omega, (Except.error.inj h).symm⟩
      · obtain ⟨i, -, -, hok⟩ := hlong hge
        simp [hok] at h

/-- The fault of words that end at the end of Memory is in its kind's range. -/
theorem truncatedFault_infoInRange {s : State} {ws : List Word} (h : s.pc.toNat + ws.length = 32768) :
    infoInRange (truncatedFault s ws).kind (truncatedFault s ws).info := by
  have hrefused : infoInRange .addressOutOfRange (BitVec.ofNat 16 (s.pc.toNat + ws.length)) := by
    rw [h]
    rfl
  cases ws with
  | nil => exact hrefused
  | cons op rest =>
    rw [truncatedFault]
    cases hf : firstOperandFault s (operandKinds op) (rest.map Operand.ofWord) with
    | some e => exact infoInRange_of_firstOperandFault (by simp [Operand.wf_ofWord]) hf
    | none => exact hrefused

/-- The fault of a fetch is in its kind's range as long as the PC is in its own (R27): an opcode word that is refused
is illegal, and words that end too early end at the end of Memory. -/
theorem fetchFault_infoInRange {s : State} {r : Reject} (hpc : s.pc.toNat ≤ 32768)
    (hd : decode s.fetched = .error r) : infoInRange (fetchFault s r).kind (fetchFault s r).info := by
  rcases decode_eq_error hd with ⟨op, -, -, hill, rfl⟩ | ⟨hlt, rfl⟩
  · exact hill
  · have hlen : s.fetched.length = min 4 (32768 - s.pc.toNat) := window_length _ _ _
    exact truncatedFault_infoInRange (by omega)

/-! ### The table of R208 -/

/-- The faults that resolving an operand can raise, by the kind of its position (R86-R88). -/
def operandFaultKinds : OperandKind → List FaultKind
  | .value => [.invalidOperand]
  | .destination => [.invalidDestination]
  | .address => [.invalidOperand, .invalidMemoryAddress]

theorem kind_mem_of_operandFault {s : State} {k : OperandKind} {o : Operand} {e : Raise}
    (h : operandFault s k o = some e) : e.kind ∈ operandFaultKinds k := by
  cases k with
  | value =>
    obtain ⟨w, -, rfl⟩ := value_eq_error.mp (raisedBy_eq_some.mp h)
    simp [operandFaultKinds]
  | destination =>
    obtain ⟨-, rfl⟩ := destination_eq_error.mp (raisedBy_eq_some.mp h)
    simp [operandFaultKinds]
  | address =>
    rcases memAddress_eq_error.mp (raisedBy_eq_some.mp h) with hv | ⟨v, -, -, rfl⟩
    · obtain ⟨w, -, rfl⟩ := value_eq_error.mp hv
      simp [operandFaultKinds]
    · simp [operandFaultKinds]

/-- The row of an instruction has the faults of each of its operands. -/
theorem operandFaultKinds_subset (i : Instr) :
    ∀ k ∈ operandKinds i.opcode, operandFaultKinds k ⊆ possibleFaults i := by
  cases i <;> simp [Instr.opcode, operandKinds, operandFaultKinds, possibleFaults]

/-- StackOverflow is no fault of an operand. -/
theorem stackOverflow_not_mem_operandFaultKinds (k : OperandKind) : .stackOverflow ∉ operandFaultKinds k := by
  cases k <;> decide

/-- Only a bounded stack is full (R31). -/
theorem bounded_of_stackFull {s : State} (h : s.stackFull = true) : s.config.stackDepthMax ≠ none := by
  obtain ⟨n, hn, -⟩ := stackFull_eq_true.mp h
  simp [hn]

/-- What an instruction raises is in its row of the table, and StackOverflow only in a bounded build. -/
theorem Raises.kind_mem {i : Instr} {s : State} {e : Raise} (h : Raises i s e) :
    e.kind ∈ possibleFaults i ∧ (e.kind = .stackOverflow → s.config.stackDepthMax ≠ none) := by
  rcases h with h | h
  · obtain ⟨k, hk, o, -, hf⟩ := operandFault_of_firstOperandFault h
    have hmem := kind_mem_of_operandFault hf
    exact ⟨operandFaultKinds_subset i k hk hmem,
      fun hover => absurd (hover ▸ hmem) (stackOverflow_not_mem_operandFaultKinds k)⟩
  · cases i with
    | push a =>
      obtain ⟨hfull, rfl⟩ := h
      exact ⟨by simp [possibleFaults], fun _ => bounded_of_stackFull hfull⟩
    | pop a =>
      obtain ⟨-, rfl⟩ := h
      exact ⟨by simp [possibleFaults], nofun⟩
    | jmp a | jt a b | jf a b =>
      obtain ⟨v, -, -, rfl⟩ := h
      exact ⟨by simp [possibleFaults], nofun⟩
    | mod a b c | inChar a =>
      obtain rfl := h
      exact ⟨by simp [possibleFaults], nofun⟩
    | call a =>
      obtain ⟨v, -, -, rfl⟩ | ⟨hfull, rfl⟩ := h
      · exact ⟨by simp [possibleFaults], nofun⟩
      · exact ⟨by simp [possibleFaults], fun _ => bounded_of_stackFull hfull⟩
    | ret =>
      obtain ⟨-, rfl⟩ | ⟨v, -, rfl⟩ := h
      · exact ⟨by simp [possibleFaults], nofun⟩
      · exact ⟨by simp [possibleFaults], nofun⟩
    | _ => exact h.elim

end Sys2Proof.Machine
end

section
/-! SUPPORT. What every step keeps: the invariant, and the outcomes of a step (spec/10_state.md R27-R36,
spec/40_fetch_decode_execute.md R117, R122). -/

namespace Sys2Proof.Machine

/-! ### What an effect keeps -/

theorem Effect.run_eq {i : Instr} {s u : State} (h : Effect i s u) : u.run = s.run := by
  cases h <;> rfl

theorem Effect.faultPc_eq {i : Instr} {s u : State} (h : Effect i s u) : u.faultPc = s.faultPc := by
  cases h <;> rfl

theorem Effect.faultInfo_eq {i : Instr} {s u : State} (h : Effect i s u) : u.faultInfo = s.faultInfo := by
  cases h <;> rfl

theorem Effect.config_eq {i : Instr} {s u : State} (h : Effect i s u) : u.config = s.config := by
  cases h <;> rfl

/-- Memory is written only word by word, which keeps the canonical form. -/
theorem Effect.memory_wf {i : Instr} {s u : State} (h : Effect i s u) (hs : Memory.wf s.mem) : Memory.wf u.mem := by
  cases h with
  | store haddr => exact Memory.writeWord_wf hs
  | _ => exact hs

/-- A word goes onto the stack only where there is room. -/
theorem Effect.stackFits {i : Instr} {s u : State} (h : Effect i s u) (hs : stackFits s) : stackFits u := by
  cases h with
  | push hv hroom | call hroom =>
    intro n hn
    have := stackFull_eq_false.mp hroom n hn
    rw [State.appendTop_stack, List.length_append]
    exact this
  | pop htop | ret htop =>
    intro n hn
    have := hs n hn
    have hle : s.stack.dropLast.length ≤ s.stack.length := by simp
    exact Nat.le_trans hle this
  | _ => exact hs

/-! ### What the four ends of an execution keep -/

theorem recordFits_of_running {s : State} (h : s.run = .running) :
    recordFits s ↔ s.faultPc = 0 ∧ s.faultInfo = 0 := by
  simp [recordFits, h]

/-- A taken fault keeps the invariant when FAULT_INFO is in its range. -/
theorem Inv.takeFault {s : State} {e : Raise} (hs : Inv s) (he : infoInRange e.kind e.info) :
    Inv (s.takeFault e) where
  memory := hs.memory
  pc := hs.pc
  record := ⟨rfl, he⟩
  wait := nofun
  stack := hs.stack
  config := hs.config

/-- An instruction that completes within 0..32768 keeps the invariant. -/
theorem Inv.complete {i : Instr} {s u : State} {next : Word} (hs : Inv s) (hrun : s.run = .running)
    (hu : Effect i s u) (hnext : next.toNat ≤ 32768) : Inv (u.complete next) where
  memory := hu.memory_wf hs.memory
  pc := hnext
  record := by
    refine (recordFits_of_running (s := u.complete next) (hu.run_eq.trans hrun)).mpr ?_
    obtain ⟨hpc, hinfo⟩ := (recordFits_of_running hrun).mp hs.record
    exact ⟨hu.faultPc_eq.trans hpc, hu.faultInfo_eq.trans hinfo⟩
  wait := nofun
  stack := hu.stackFits hs.stack
  config := (congrArg Config.wf hu.config_eq).trans hs.config

theorem Inv.halt {s : State} (hs : Inv s) (hrun : s.run = .running) : Inv s.halt where
  memory := hs.memory
  pc := hs.pc
  record := (recordFits_of_running hrun).mp hs.record
  wait := nofun
  stack := hs.stack
  config := hs.config

/-- A hold keeps the invariant, at an `in` of a register: the PC and Memory stay, so it is still there. -/
theorem Inv.hold {s : State} {r : RegIndex} {rest : List Word} (hs : Inv s) (hrun : s.run = .running)
    (hd : decode s.fetched = .ok (.inChar (.register r), rest)) : Inv s.hold where
  memory := hs.memory
  pc := hs.pc
  record := hs.record
  wait := fun _ => ⟨hrun, r, rest, hd⟩
  stack := hs.stack
  config := hs.config

/-- An answer made ready keeps the invariant, which does not speak of the answers. -/
theorem Inv.supply {s : State} (hs : Inv s) (r : InputReply) : Inv (s.supply r) where
  memory := hs.memory
  pc := hs.pc
  record := hs.record
  wait := hs.wait
  stack := hs.stack
  config := hs.config

/-- Of an instruction within Memory, the PC afterwards is the exact sum, or a program address if it sets the PC. -/
theorem NextPc.toNat_cases {i : Instr} {s : State} {next : Word} (h : NextPc i s next)
    (hfit : s.pc.toNat + i.length ≤ 32768) :
    next.toNat = s.pc.toNat + i.length ∨ (opcodeSetsPc s i = true ∧ next.toNat ≤ 32767) := by
  rcases h with ⟨-, rfl⟩ | ⟨hsets, hlt⟩
  · left
    rw [BitVec.toNat_add, BitVec.toNat_ofNat]
    omega
  · exact .inr ⟨hsets, Nat.le_of_lt_succ hlt⟩

/-! ### Every step -/

/-- A Running step executes the instruction at the PC, or takes the fault of its fetch. -/
theorem step_running_cases {s t : State} (hrun : s.run = .running) (h : step s = .next t) :
    (∃ i rest, decode s.fetched = .ok (i, rest) ∧ Ends i s t) ∨
    ∃ r, decode s.fetched = .error r ∧ t = s.takeFault (fetchFault s r) := by
  cases hd : decode s.fetched with
  | ok d =>
    obtain ⟨i, rest⟩ := d
    rw [step_of_decode_ok hrun hd] at h
    exact .inl ⟨i, rest, rfl, exec_ends h⟩
  | error r =>
    rw [step_of_decode_error hrun hd] at h
    exact .inr ⟨r, rfl, (Host.Outcome.next.inj h).symm⟩

/-- A step keeps the invariant: by the four ends of an execution, with the instruction that decodes within Memory and
well-formed; or by the fault of the fetch; or, in a terminal state, as nothing changes. -/
theorem Inv.step {s t : State} (hs : Inv s) (h : step s = .next t) : Inv t := by
  by_cases hrun : s.run = .running
  · rcases step_running_cases hrun h with ⟨i, rest, hd, hends⟩ | ⟨r, hd, rfl⟩
    · cases hends with
      | complete hu hnext =>
        refine hs.complete hrun hu ?_
        have hfit := pc_add_length_le hd
        rcases hnext.toNat_cases hfit with heq | ⟨-, hle⟩
        · omega
        · omega
      | halt _ => exact hs.halt hrun
      | hold hi _ => exact hs.hold hrun (hi ▸ hd)
      | fault he => exact hs.takeFault (he.infoInRange (encodeOfDecode _ _ _ hd).1)
    · exact hs.takeFault (fetchFault_infoInRange hs.pc hd)
  · rw [step_terminal hrun] at h
    exact Host.Outcome.next.inj h ▸ hs

/-- Settles O59: a step keeps the invariant, and an answer of the host is a step of the state with the answer ready. -/
theorem stepKeepsInvariant : Obligations.StepKeepsInvariant := by
  refine fun s t hs => ⟨hs.step, fun r h => ?_⟩
  unfold inputReply at h
  split at h
  · exact (hs.supply r).step h
  · nomatch h

/-! ### Reset and load -/

/-- Where nothing is waiting, no fault is recorded and the stack is empty, Memory's form is all the invariant asks. -/
theorem inv_loaded {m : Memory} {c : Config} (hm : Memory.wf m) (hc : c.wf = true) :
    Inv { State.reset with mem := m, config := c } where
  memory := hm
  pc := Nat.zero_le _
  record := ⟨rfl, rfl⟩
  wait := nofun
  stack := fun n _ => Nat.zero_le n
  config := hc

/-- A load answers, for an image of whole words that fits, the reset state with the image in Memory (R241, R242). -/
theorem load_eq_some {c : Config} {image : List Byte} {s : State} :
    load c image = some s ↔ (image.length % 2 = 0 ∧ image.length ≤ 65536) ∧
      s = { State.reset with mem := Memory.ofImage 0 image, config := c } := by
  simp [load, eq_comm]

/-- Settles O58: nothing is listed in the empty Memory, and the memory of an image that fits is canonical. -/
theorem resetMeetsInvariant : Obligations.ResetMeetsInvariant := by
  refine ⟨inv_loaded (m := []) (by simp [Memory.wf]) rfl, fun c image s hc h => ?_⟩
  obtain ⟨⟨-, hlen⟩, rfl⟩ := load_eq_some.mp h
  exact inv_loaded (Memory.ofImage_wf (by omega)) hc

/-! ### How a Running state is left -/

/-- Only a taken fault leads from Running to Faulted. -/
theorem Ends.raises_of_faulted {i : Instr} {s t : State} {k : FaultKind} (h : Ends i s t) (hrun : s.run = .running)
    (hk : t.run = .faulted k) : ∃ e, Raises i s e ∧ t = s.takeFault e ∧ e.kind = k := by
  cases h with
  | complete hu _ => simp [hu.run_eq, hrun] at hk
  | halt _ => simp at hk
  | hold _ _ => simp [hrun] at hk
  | fault he => exact ⟨_, he, rfl, by simpa using hk⟩

/-- Settles O18: the fault that leaves a Running state is raised, and so in the instruction's row. -/
theorem faultsOfEachInstruction : Obligations.FaultsOfEachInstruction := by
  intro i s t k hrun h hk
  obtain ⟨e, he, -, rfl⟩ := (exec_ends h).raises_of_faulted hrun hk
  exact he.kind_mem

/-- Settles O17: the fault is taken from the state at the start of the step, whether it is raised by a well-formed
instruction or by the fetch. -/
theorem faultsArePrecise : Obligations.FaultsArePrecise := by
  intro s t k hs hrun h hk
  rcases step_running_cases hrun h with ⟨i, rest, hd, hends⟩ | ⟨r, hd, rfl⟩
  · obtain ⟨e, he, rfl, rfl⟩ := hends.raises_of_faulted hrun hk
    exact ⟨rfl, he.infoInRange (encodeOfDecode _ _ _ hd).1⟩
  · obtain rfl : (fetchFault s r).kind = k := by simpa using hk
    exact ⟨rfl, fetchFault_infoInRange hs.pc hd⟩

/-- A step always answers a next state (R122). -/
theorem step_answers (s : State) : ∃ t, step s = .next t := by
  by_cases hrun : s.run = .running
  · cases hd : decode s.fetched with
    | ok d =>
      obtain ⟨t, ht⟩ := exec_answers d.1 s
      exact ⟨t, (step_of_decode_ok hrun hd).trans ht⟩
    | error r => exact ⟨_, step_of_decode_error hrun hd⟩
  · exact ⟨s, step_terminal hrun⟩

/-- Settles O11: one outcome for each end of an execution; the fault of a fetch is Faulted too. -/
theorem stepOutcomes : Obligations.StepOutcomes := by
  intro s
  obtain ⟨t, ht⟩ := step_answers s
  refine ⟨t, ht, ?_⟩
  by_cases hrun : s.run = .running
  · rcases step_running_cases hrun ht with ⟨i, rest, -, hends⟩ | ⟨r, -, rfl⟩
    · cases hends with
      | complete hu _ => exact .inl ⟨hrun, hu.run_eq.trans hrun, rfl⟩
      | halt _ => exact .inr (.inl ⟨hrun, rfl⟩)
      | hold _ _ => exact .inr (.inr (.inr (.inl ⟨hrun, rfl⟩)))
      | fault _ => exact .inr (.inr (.inl ⟨hrun, _, rfl⟩))
    · exact .inr (.inr (.inl ⟨hrun, _, rfl⟩))
  · rw [step_terminal hrun] at ht
    exact .inr (.inr (.inr (.inr ⟨hrun, (Host.Outcome.next.inj ht).symm⟩)))

end Sys2Proof.Machine
end

section
/-! SUPPORT. The frames: what executing an instruction leaves unchanged (spec/10_state.md R22, R26, R30, R34-R37,
spec/43_alu.md R159, spec/46_io.md R192, R194). -/

namespace Sys2Proof.Machine

/-! ### What each kind of effect leaves unchanged -/

/-- Every register but the one the R operand names is left alone (R22). -/
theorem Effect.readReg_eq {i : Instr} {s u : State} {r : RegIndex} (h : Effect i s u)
    (hr : destinationOperand i ≠ some (.register r)) : u.readReg r = s.readReg r := by
  have writeReg_eq {v : State} {q : RegIndex} {w : Word} (hq : destinationOperand i = some (.register q)) :
      (v.writeReg q w).readReg r = v.readReg r := by
    rw [readReg_writeReg, if_neg]
    rintro rfl
    exact hr hq
  cases h with
  | write hdest _ => exact writeReg_eq hdest
  | pop _ | receive _ => exact writeReg_eq rfl
  | _ => rfl

/-- Every byte outside the word that a wmem stores is left alone (R37). -/
theorem Effect.readByte_eq {i : Instr} {s u : State} {n : Nat} (h : Effect i s u)
    (hn : ∀ a b addr, i = .wmem a b → memAddress s a = .ok addr → n ≠ 2 * addr.val ∧ n ≠ 2 * addr.val + 1) :
    u.mem.readByte n = s.mem.readByte n := by
  cases h with
  | store haddr =>
    obtain ⟨h0, h1⟩ := hn _ _ _ rfl haddr
    exact Memory.readByte_writeWord_of_ne h0 h1
  | _ => rfl

/-- The stack is left alone but by push and call, which add a word, and by pop and ret, which take the top (R30). -/
theorem Effect.stack_cases {i : Instr} {s u : State} (h : Effect i s u) :
    u.stack = s.stack ∨
    (∃ a v, i = .push a ∧ value s a = .ok v ∧ u.stack = s.stack ++ [v]) ∨
    (∃ a, i = .call a ∧ u.stack = s.stack ++ [s.pc + 2]) ∨
    (((∃ a, i = .pop a) ∨ i = .ret) ∧ ∃ v, s.stack = u.stack ++ [v]) := by
  cases h with
  | push hv _ => exact .inr (.inl ⟨_, _, rfl, hv, rfl⟩)
  | call _ => exact .inr (.inr (.inl ⟨_, rfl, rfl⟩))
  | pop htop => exact .inr (.inr (.inr ⟨.inl ⟨_, rfl⟩, _, htop⟩))
  | ret htop => exact .inr (.inr (.inr ⟨.inr rfl, _, htop⟩))
  | _ => exact .inl rfl

/-- Only out emits, its value's low byte (R190). -/
theorem Effect.output_cases {i : Instr} {s u : State} (h : Effect i s u) :
    u.output = s.output ∨ ∃ a v, i = .out a ∧ value s a = .ok v ∧
      u.output = s.output ++ [BitVec.ofNat 8 (v.toNat % 256)] := by
  cases h with
  | emit hv => exact .inr ⟨_, _, rfl, hv, by rw [State.emit_output, lowByte_eq_ofNat]⟩
  | _ => exact .inl rfl

/-- Only an `in` of a register takes an answer, a character (R191). -/
theorem Effect.input_cases {i : Instr} {s u : State} (h : Effect i s u) :
    u.input = s.input ∨ ∃ r c, i = .inChar (.register r) ∧ s.input = .char c :: u.input := by
  cases h with
  | @receive _ r c rest hinput =>
    refine .inr ⟨r, c, rfl, ?_⟩
    rw [State.writeReg_input, State.dropReply_input, hinput, List.tail_cons]
  | _ => exact .inl rfl

/-- Only the instructions that may transfer set the PC (R26). -/
theorem transfersControl_of_opcodeSetsPc {i : Instr} {s : State} (h : opcodeSetsPc s i = true) :
    transfersControl i = true := by
  cases i with
  | jmp | jt | jf | call | ret => rfl
  | _ => exact h

/-! ### The obligations on what an instruction leaves unchanged -/

/-- Settles O48: the only end that touches a register is completion, with its effect. -/
theorem registerFrame : Obligations.RegisterFrame := by
  intro i s t r h hr
  cases exec_ends h with
  | complete hu _ => exact hu.readReg_eq hr
  | halt _ | hold _ _ | fault _ => rfl

/-- Settles O49: the only end that touches Memory is completion, with its effect. -/
theorem memoryFrame : Obligations.MemoryFrame := by
  intro i s t n h hn
  cases exec_ends h with
  | complete hu _ => exact hu.readByte_eq hn
  | halt _ | hold _ _ | fault _ => rfl

/-- Settles O50, one case for each thing that can happen to the stack. -/
theorem stackFrame : Obligations.StackFrame := by
  intro i s t h
  have hcases : t.stack = s.stack ∨
      (∃ a v, i = .push a ∧ value s a = .ok v ∧ t.stack = s.stack ++ [v]) ∨
      (∃ a, i = .call a ∧ t.stack = s.stack ++ [s.pc + 2]) ∨
      (((∃ a, i = .pop a) ∨ i = .ret) ∧ ∃ v, s.stack = t.stack ++ [v]) := by
    cases exec_ends h with
    | complete hu _ => exact hu.stack_cases
    | halt _ | hold _ _ | fault _ => exact .inl rfl
  rcases hcases with heq | ⟨a, v, rfl, hv, hpush⟩ | ⟨a, rfl, hcall⟩ | ⟨⟨a, rfl⟩ | rfl, htop⟩
  · exact ⟨fun _ => heq, fun _ _ => .inl heq, fun _ _ => .inl heq, fun _ _ => .inl heq, fun _ => .inl heq⟩
  · refine ⟨nofun, fun a' ha => ?_, nofun, nofun, nofun⟩
    obtain rfl := Instr.push.inj ha
    exact .inr ⟨v, hv, hpush⟩
  · exact ⟨nofun, nofun, fun _ _ => .inr hcall, nofun, nofun⟩
  · exact ⟨nofun, nofun, nofun, fun _ _ => .inr htop, nofun⟩
  · exact ⟨nofun, nofun, nofun, nofun, fun _ => .inr htop⟩

/-- Settles O51: the only end that touches the console is completion, with its effect. -/
theorem consoleFrame : Obligations.ConsoleFrame := by
  intro i s t h
  cases exec_ends h with
  | complete hu _ => exact ⟨hu.output_cases, hu.input_cases⟩
  | halt _ | hold _ _ | fault _ => exact ⟨.inl rfl, .inl rfl⟩

/-- Settles O52, one case for each end of an execution. -/
theorem statusFrame : Obligations.StatusFrame := by
  intro i s t h
  cases exec_ends h with
  | complete hu _ => exact ⟨hu.config_eq, .inl ⟨hu.run_eq, hu.faultPc_eq, hu.faultInfo_eq⟩, nofun⟩
  | halt hi => exact ⟨rfl, .inr (.inl ⟨hi, rfl, rfl, rfl⟩), nofun⟩
  | hold hi hinput => exact ⟨rfl, .inl ⟨rfl, rfl, rfl⟩, fun _ => ⟨_, hi, hinput⟩⟩
  | fault _ => exact ⟨rfl, .inr (.inr ⟨_, rfl⟩), nofun⟩

/-- Settles O53: of the four ends only completion is Running without a hold. -/
theorem pcAfterCompletion : Obligations.PcAfterCompletion := by
  intro i s t hfit h hrun hwait
  cases exec_ends h with
  | complete _ hnext =>
    exact (hnext.toNat_cases hfit).imp_right fun ⟨hsets, hle⟩ => ⟨transfersControl_of_opcodeSetsPc hsets, hle⟩
  | halt _ | fault _ => nomatch hrun
  | hold _ _ => nomatch hwait

/-- Settles O34: an instruction of the six that stays Running writes its register, and with a clamped result. -/
theorem arithmeticResultsAreLiterals : Obligations.ArithmeticResultsAreLiterals := by
  intro i s t r hclamped hdest _ h hrun
  cases exec_ends h with
  | complete hu _ =>
    cases hu with
    | nothing hnone => simp [hnone] at hdest
    | @write _ _ q v hq hv =>
      obtain rfl : q = r := by simpa [hq] using hdest
      have hread : (s.writeReg q v).readReg q = v := by rw [readReg_writeReg, if_pos rfl]
      show ((s.writeReg q v).readReg q).toNat ≤ 32767
      rw [hread]
      exact Nat.le_of_lt_succ (hv hclamped)
    | _ => nomatch hclamped
  | halt _ | fault _ => nomatch hrun
  | hold hi _ => simp [hi, clampedResult] at hclamped

end Sys2Proof.Machine
end

section
/-! SUPPORT. The rules of machine control, push, mod, and, or, and of the transfers
(spec/41_machine_control.md, spec/42_register_stack.md R141, spec/43_alu.md R154-R156, spec/44_control_transfer.md). -/

namespace Sys2Proof.Machine

/-! ### halt and noop -/

theorem exec_halt (s : State) : exec .halt s = .next s.halt := rfl

theorem exec_noop (s : State) : exec .noop s = .next (s.complete (s.pc + 1)) := rfl

/-- One word that is fetched at the PC is the words of an instruction without operands. -/
theorem wordsAtPc_singleton {s : State} {w : Word} (h : s.fetchWord s.pc.toNat = .ok w) : wordsAtPc s [w] := by
  intro k hk
  obtain rfl : k = 0 := Nat.lt_one_iff.mp hk
  exact h

/-- Settles O19: the word 0 at the PC is the words of halt. -/
theorem haltRule : Obligations.HaltRule := fun s =>
  ⟨exec_halt s, rfl, fun hrun hword => stepRunsWordsInMemory s .halt hrun rfl (wordsAtPc_singleton hword)⟩

/-- Settles O20: the word 21 at the PC is the words of noop; past the last address the opcode fetch faults. -/
theorem noopRule : Obligations.NoopRule := by
  intro s
  refine ⟨exec_noop s, rfl, fun hrun hword hpc => ?_⟩
  have hstep : step s = .next (s.complete 32768) := by
    rw [stepRunsWordsInMemory s .noop hrun rfl (wordsAtPc_singleton hword), exec_noop, hpc]
    rfl
  exact ⟨_, hstep, rfl, (opcodeFetch (s.complete 32768)).1 hrun (Nat.le_refl _)⟩

/-! ### push -/

theorem exec_push_of_value_error {s : State} {a : Operand} {e : Raise} (ha : value s a = .error e) :
    exec (.push a) s = .next (s.takeFault e) := by
  simp [exec_push, execPush, ha]

/-- A bounded stack that is full refuses a word (R31). -/
theorem push_of_full {s : State} {n : Nat} (v : Word) (hn : s.config.stackDepthMax = some n)
    (hfull : n ≤ s.stack.length) : s.push v = .error ⟨.stackOverflow, 0⟩ :=
  push_eq_error.mpr ⟨stackFull_eq_true.mpr ⟨n, hn, hfull⟩, rfl⟩

theorem exec_push_of_full {s : State} {a : Operand} {v : Word} {n : Nat} (ha : value s a = .ok v)
    (hn : s.config.stackDepthMax = some n) (hfull : n ≤ s.stack.length) :
    exec (.push a) s = .next (s.takeFault ⟨.stackOverflow, 0⟩) := by
  simp [exec_push, execPush, ha, push_of_full v hn hfull]

/-- Settles O22, one case of push for each clause. -/
theorem pushRule : Obligations.PushRule := fun _ _ =>
  ⟨rfl, fun _ => exec_push_of_value_error, fun _ _ => exec_push_of_full, fun _ => exec_push_of_room⟩

/-! ### mod, and, or -/

theorem exec_and (a b c : Operand) (s : State) :
    exec (.and a b c) s = commit s (threeOperand (fun x y => .ok (aluAnd x y)) a b c s) := rfl

theorem exec_or (a b c : Operand) (s : State) :
    exec (.or a b c) s = commit s (threeOperand (fun x y => .ok (aluOr x y)) a b c s) := rfl

/-- Settles O29: mod is the three-operand form of the clamped remainder, which a zero divisor refuses. -/
theorem modRule : Obligations.ModRule :=
  ⟨threeOperandFaults_of_exec (fun _ _ _ => rfl) exec_mod,
    threeOperandResult_of_exec exec_mod fun _ _ hy => aluMod_eq_ok.mpr ⟨hy, rfl⟩,
    fun _ _ _ _ _ _ => exec_mod_by_zero⟩

/-- Settles O30: and is the three-operand form of the clamped bitwise and. -/
theorem andRule : Obligations.AndRule :=
  threeOperandRule_of_exec (fun _ _ _ => rfl) exec_and fun x y => by rw [aluAnd, BitVec.toNat_and, clamp15]

/-- Settles O31: or is the three-operand form of the clamped bitwise or. -/
theorem orRule : Obligations.OrRule :=
  threeOperandRule_of_exec (fun _ _ _ => rfl) exec_or fun x y => by rw [aluOr, BitVec.toNat_or, clamp15]

/-! ### jt and jf -/

/-- An instruction of format F2 that executes as a conditional jump meets the whole rule. -/
theorem conditionalJumpRule_of_exec {op : Word} {mk : Operand → Operand → Instr} {taken : Word → Prop}
    [DecidablePred taken] (hwords : ∀ a b, encode (mk a b) = [op, a.toWord, b.toWord])
    (hexec : ∀ a b s, exec (mk a b) s = commit s (conditionalJump (fun x => decide (taken x)) a b s)) :
    ConditionalJumpRule op mk taken := by
  intro s a b
  rw [hexec, conditionalJump]
  refine ⟨hwords a b, fun e ha => ?_, fun x e ha hb => ?_, fun x t ha hb hx ht => ?_, fun x t ha hb hx ht => ?_,
    fun x t ha hb hx => ?_⟩
  · rw [ha, error_bind, commit_error]
  · rw [ha, ok_bind, hb, error_bind, commit_error]
  · rw [ha, ok_bind, hb, ok_bind, if_pos (decide_eq_true hx), checkTarget_of_le ht]
    rfl
  · rw [ha, ok_bind, hb, ok_bind, if_pos (decide_eq_true hx), checkTarget_of_ge ht]
    rfl
  · rw [ha, ok_bind, hb, ok_bind, if_neg (by simpa using hx)]
    rfl

/-- Settles O36: jt and jf are conditional jumps on nonzero and on zero. -/
theorem conditionalJumpRules : Obligations.ConditionalJumpRules :=
  ⟨conditionalJumpRule_of_exec (fun _ _ => rfl) fun _ _ _ => rfl,
    conditionalJumpRule_of_exec (fun _ _ => rfl) fun _ _ _ => rfl⟩

/-! ### call and ret -/

theorem exec_call (a : Operand) (s : State) : exec (.call a) s = execCall a s := rfl

theorem exec_ret (s : State) : exec .ret s = execRet s := rfl

theorem exec_call_of_value_error {s : State} {a : Operand} {e : Raise} (ha : value s a = .error e) :
    exec (.call a) s = .next (s.takeFault e) := by
  simp [exec_call, execCall, ha]

theorem exec_call_of_invalid_target {s : State} {a : Operand} {t : Word} (ha : value s a = .ok t)
    (ht : 32768 ≤ t.toNat) : exec (.call a) s = .next (s.takeFault ⟨.invalidJumpTarget, t⟩) := by
  simp [exec_call, execCall, ha, checkTarget_of_ge ht]

theorem exec_call_of_full {s : State} {a : Operand} {t : Word} {n : Nat} (ha : value s a = .ok t)
    (ht : t.toNat ≤ 32767) (hn : s.config.stackDepthMax = some n) (hfull : n ≤ s.stack.length) :
    exec (.call a) s = .next (s.takeFault ⟨.stackOverflow, 0⟩) := by
  simp [exec_call, execCall, ha, checkTarget_of_le ht, push_of_full _ hn hfull]

/-- With room on the stack a call of a program address pushes the return address and jumps (R175). -/
theorem exec_call_of_room {s : State} {a : Operand} {t : Word} (ha : value s a = .ok t) (ht : t.toNat ≤ 32767)
    (hroom : hasRoom s) : exec (.call a) s = .next ((s.appendTop (s.pc + 2)).complete t) := by
  have hpush : s.push (s.pc + 2) = .ok (s.appendTop (s.pc + 2)) := push_eq_ok.mpr ⟨stackFull_eq_false.mpr hroom, rfl⟩
  rw [exec_call, execCall, ha, ok_bind, checkTarget_of_le ht, ok_bind, hpush, ok_bind, commit_ok]

/-- Settles O37, one case of call for each clause. -/
theorem callRule : Obligations.CallRule := fun _ _ =>
  ⟨rfl, fun _ => exec_call_of_value_error, fun _ => exec_call_of_invalid_target, fun _ _ => exec_call_of_full,
    fun _ => exec_call_of_room⟩

theorem exec_ret_of_empty {s : State} (h : s.stack = []) :
    exec .ret s = .next (s.takeFault ⟨.stackUnderflow, 0⟩) := by
  have htop : s.top = .error ⟨.stackUnderflow, 0⟩ := top_eq_error.mpr ⟨h, rfl⟩
  simp [exec_ret, execRet, htop]

theorem exec_ret_of_invalid_target {s : State} {below : List Word} {t : Word} (h : s.stack = below ++ [t])
    (ht : 32768 ≤ t.toNat) : exec .ret s = .next (s.takeFault ⟨.invalidJumpTarget, t⟩) := by
  have htop : s.top = .ok t := top_eq_ok.mpr (by simp [h])
  simp [exec_ret, execRet, htop, checkTarget_of_ge ht]

/-- A ret to a program address takes the top word and jumps there (R176). -/
theorem exec_ret_of_target {s : State} {below : List Word} {t : Word} (h : s.stack = below ++ [t])
    (ht : t.toNat ≤ 32767) : exec .ret s = .next { s with stack := below, pc := t, waitIn := false } := by
  have htop : s.top = .ok t := top_eq_ok.mpr (by simp [h])
  simp [exec_ret, execRet, htop, checkTarget_of_le ht, dropTop_of_concat h, State.complete]

/-- Settles O38, one case of ret for each clause. -/
theorem retRule : Obligations.RetRule :=
  ⟨rfl, fun _ => ⟨exec_ret_of_empty, fun _ _ => exec_ret_of_invalid_target, fun _ _ => exec_ret_of_target⟩⟩

/-- Settles O39: the return address pc + 2 does not wrap and is a program address, so the ret takes it. -/
theorem callThenRetResumes : Obligations.CallThenRetResumes := by
  intro s a t ha ht hroom hpc
  have hreturn : (s.pc + 2).toNat = s.pc.toNat + 2 := by
    have htwo : (2 : Word).toNat = 2 := rfl
    rw [BitVec.toNat_add, htwo]
    omega
  refine ⟨_, exec_call_of_room ha ht hroom, rfl, fun v hv => ?_⟩
  have hstack : v.stack = s.stack ++ [s.pc + 2] := hv
  exact ⟨_, exec_ret_of_target hstack (by omega), hreturn, rfl⟩

end Sys2Proof.Machine
end

section
/-! SUPPORT. Memory: rmem, and reads and fetches after a write (spec/20_memory.md R58, R61, R66,
spec/45_memory_access.md R180). -/

namespace Sys2Proof.Machine

/-- A word write leaves every other word alone. -/
theorem Memory.readWord_writeWord_of_ne {m : Memory} {a b : Addr} {v : Word} (h : b ≠ a) :
    (m.writeWord a v).readWord b = m.readWord b := by
  have hval : b.val ≠ a.val := Fin.val_ne_of_ne h
  rw [Memory.readWord, Memory.readByte_writeWord_of_ne (by omega) (by omega),
    Memory.readByte_writeWord_of_ne (by omega) (by omega), Memory.readWord]

/-- Settles O42: the word itself reads back, and every other one is left alone. -/
theorem readAfterWrite : Obligations.ReadAfterWrite := by
  intro m a b v hm
  split
  · rename_i hab
    rw [hab]
    exact Memory.readWord_writeWord_same hm
  · rename_i hab
    exact Memory.readWord_writeWord_of_ne hab

/-- At an address a fetch is a read of Memory (R112). -/
theorem fetchWord_val (s : State) (a : Addr) : s.fetchWord a.val = .ok (s.mem.readWord a) :=
  fetchWord_eq_ok.mpr ⟨a, rfl, rfl⟩

/-- Settles O43: a fetch at an address is a read of the Memory written; beyond the end it is refused as before. -/
theorem fetchSeesStores : Obligations.FetchSeesStores := by
  intro s t a b addr v hm ha hb h n
  obtain rfl : (s.storeWord addr v).complete (s.pc + 3) = t := by simpa [exec_wmem_of_ok ha hb] using h
  rcases Nat.lt_or_ge n 32768 with hn | hn
  · lift n to Addr using hn
    rw [fetchWord_val, fetchWord_val, State.complete_mem, State.storeWord_mem, readAfterWrite _ _ _ _ hm]
    simp only [Fin.ext_iff]
    split
    · rfl
    · rfl
  · have hne : n ≠ addr.val := by omega
    rw [if_neg hne, fetchWord_eq_error.mpr ⟨hn, rfl⟩, fetchWord_eq_error.mpr ⟨hn, rfl⟩]

/-! ### rmem -/

theorem exec_rmem (a b : Operand) (s : State) : exec (.rmem a b) s = execRmem a b s := rfl

theorem exec_rmem_of_destination_error {s : State} {a b : Operand} {e : Raise} (ha : destination a = .error e) :
    exec (.rmem a b) s = .next (s.takeFault e) := by
  simp [exec_rmem, execRmem, ha]

theorem exec_rmem_of_address_error {s : State} {a b : Operand} {i : RegIndex} {e : Raise}
    (ha : destination a = .ok i) (hb : memAddress s b = .error e) :
    exec (.rmem a b) s = .next (s.takeFault e) := by
  simp [exec_rmem, execRmem, ha, hb]

/-- An rmem whose operands resolve copies the word and completes (R180). -/
theorem exec_rmem_of_ok {s : State} {a b : Operand} {i : RegIndex} {addr : Addr} (ha : destination a = .ok i)
    (hb : memAddress s b = .ok addr) :
    exec (.rmem a b) s = .next ((s.writeReg i (s.mem.readWord addr)).complete (s.pc + 3)) := by
  simp [exec_rmem, execRmem, ha, hb]

/-- Settles O40, one case of rmem for each clause. -/
theorem rmemRule : Obligations.RmemRule := fun _ _ _ =>
  ⟨rfl, fun _ => exec_rmem_of_destination_error, fun _ _ => exec_rmem_of_address_error, fun _ _ => exec_rmem_of_ok⟩

end Sys2Proof.Machine
end

section
/-! SUPPORT. in: with an answer ready, without one, and with the host's answer (spec/46_io.md R191-R193,
spec/40_fetch_decode_execute.md R121). -/

namespace Sys2Proof.Machine

theorem exec_inChar (a : Operand) (s : State) : exec (.inChar a) s = execIn a s := rfl

theorem exec_inChar_of_destination_error {s : State} {a : Operand} {e : Raise} (ha : destination a = .error e) :
    exec (.inChar a) s = .next (s.takeFault e) := by
  simp [exec_inChar, execIn, ha]

/-- With a character ready an `in` stores its code and takes the answer (R191). -/
theorem exec_inChar_of_char {s : State} {a : Operand} {i : RegIndex} {c : Byte} {rest : List InputReply}
    (ha : destination a = .ok i) (hinput : s.input = .char c :: rest) :
    exec (.inChar a) s = .next { s with
      regs := s.regs.set i (BitVec.ofNat 16 c.toNat), input := rest, pc := s.pc + 2, waitIn := false } := by
  simp [exec_inChar, execIn, ha, hinput, State.dropReply, State.writeReg, State.complete, BitVec.ofNat_toNat]

theorem exec_inChar_of_endOfInput {s : State} {a : Operand} {i : RegIndex} {rest : List InputReply}
    (ha : destination a = .ok i) (hinput : s.input = .endOfInput :: rest) :
    exec (.inChar a) s = .next (s.takeFault ⟨.inputExhausted, 0⟩) := by
  simp [exec_inChar, execIn, ha, hinput]

/-- Without an answer an `in` holds (R121). -/
theorem exec_inChar_of_no_answer {s : State} {a : Operand} {i : RegIndex} (ha : destination a = .ok i)
    (hinput : s.input = []) : exec (.inChar a) s = .next s.hold := by
  simp [exec_inChar, execIn, ha, hinput]

/-- Settles O45, one case of `in` for each clause. -/
theorem inRule : Obligations.InRule := fun _ _ =>
  ⟨rfl, fun _ => exec_inChar_of_destination_error, fun _ _ _ => exec_inChar_of_char,
    fun _ _ => exec_inChar_of_endOfInput, fun _ => exec_inChar_of_no_answer⟩

/-- A Running state that holds has STATUS 4: WAIT_IN and nothing else (R36). -/
theorem status_hold {s : State} (hrun : s.run = .running) : s.hold.status = 4 := by
  have hwaiting : s.hold.waiting = true := by simp [State.waiting, hrun]
  rw [State.status, hwaiting, State.hold_run, hrun]
  rfl

/-- Settles O46: the state that holds has the same words at the PC and still no answer, so it holds again. -/
theorem inHolds : Obligations.InHolds := by
  intro s i rest hrun hd hinput
  have hstep : step s = .next s.hold :=
    (step_of_decode_ok hrun hd).trans (exec_inChar_of_no_answer (destination_register i) hinput)
  have hagain : step s.hold = .next s.hold :=
    (step_of_decode_ok (s := s.hold) hrun hd).trans (exec_inChar_of_no_answer (destination_register i) hinput)
  exact ⟨hstep, status_hold hrun, run_of_step_self core hagain⟩

/-- At a waiting `in` the host's answer is the step of the state with the answer ready (R193). -/
theorem inputReply_of_waiting {s : State} {i : RegIndex} {rest : List Word} (hrun : s.run = .running)
    (hwait : s.waitIn = true) (hd : decode s.fetched = .ok (.inChar (.register i), rest)) (r : InputReply) :
    inputReply r s = exec (.inChar (.register i)) (s.supply r) := by
  have hwaiting : s.waiting = true := by simp [State.waiting, hrun, hwait]
  rw [inputReply, if_pos hwaiting]
  exact step_of_decode_ok hrun hd

/-- Settles O47: the answer is then the only one ready, and it is a character or the end of input. -/
theorem inputReplyCompletes : Obligations.InputReplyCompletes := by
  intro s i rest
  refine ⟨fun hrun hwait hd hinput => ⟨fun c => ?_, ?_⟩, fun r hr => ?_⟩
  · have hready : (s.supply (.char c)).input = .char c :: s.input := by simp [hinput]
    rw [inputReply_of_waiting hrun hwait hd, exec_inChar_of_char (destination_register i) hready]
    rfl
  · have hready : (s.supply .endOfInput).input = .endOfInput :: [] := by simp [hinput]
    rw [inputReply_of_waiting hrun hwait hd, exec_inChar_of_endOfInput (destination_register i) hready]
    exact ⟨_, rfl, rfl, rfl, rfl, rfl, rfl, rfl, rfl, rfl⟩
  · have hwaiting : s.waiting = false := by
      rcases hr with hr | hr
      · simp [State.waiting, hr]
      · simp [State.waiting, hr]
    rw [inputReply, if_neg (by simp [hwaiting])]

end Sys2Proof.Machine
end

section
/-! SUPPORT. The order of faults, and the step as the loop of the spec's pseudocode
(spec/30_encoding.md R90, spec/40_fetch_decode_execute.md R111, R115, spec/60_exceptions.md R206). -/

namespace Sys2Proof.Machine

/-! ### Operands resolve first (R115, R206) -/

/-- An instruction that begins with one resolution takes its fault. -/
theorem commit_of_fault_one {s : State} {k : OperandKind} {o : Operand} {e : Raise} {α : Type} {x : Attempt α}
    {f : α → Attempt State} (hx : operandFault s k o = raisedBy x) (h : firstOperandFault s [k] [o] = some e) :
    commit s (x >>= f) = .next (s.takeFault e) := by
  rw [firstOperandFault_one, hx, raisedBy_eq_some] at h
  rw [h, error_bind, commit_error]

/-- An instruction that begins with two resolutions takes the fault of the first that fails. -/
theorem commit_of_fault_two {s : State} {k l : OperandKind} {o p : Operand} {e : Raise} {α β : Type}
    {x : Attempt α} {y : Attempt β} {f : α → β → Attempt State} (hx : operandFault s k o = raisedBy x)
    (hy : operandFault s l p = raisedBy y) (h : firstOperandFault s [k, l] [o, p] = some e) :
    commit s (x >>= fun a => y >>= f a) = .next (s.takeFault e) := by
  cases x with
  | error e' =>
    rw [firstOperandFault_cons_some (hx.trans (raisedBy_error e'))] at h
    rw [error_bind, commit_error, Option.some.inj h]
  | ok a =>
    rw [firstOperandFault_cons_none (hx.trans (raisedBy_ok a))] at h
    rw [ok_bind, commit_of_fault_one hy h]

/-- An instruction that begins with three resolutions takes the fault of the first that fails. -/
theorem commit_of_fault_three {s : State} {k l m : OperandKind} {o p q : Operand} {e : Raise} {α β γ : Type}
    {x : Attempt α} {y : Attempt β} {z : Attempt γ} {f : α → β → γ → Attempt State}
    (hx : operandFault s k o = raisedBy x) (hy : operandFault s l p = raisedBy y)
    (hz : operandFault s m q = raisedBy z) (h : firstOperandFault s [k, l, m] [o, p, q] = some e) :
    commit s (x >>= fun a => y >>= fun b => z >>= f a b) = .next (s.takeFault e) := by
  cases x with
  | error e' =>
    rw [firstOperandFault_cons_some (hx.trans (raisedBy_error e'))] at h
    rw [error_bind, commit_error, Option.some.inj h]
  | ok a =>
    rw [firstOperandFault_cons_none (hx.trans (raisedBy_ok a))] at h
    rw [ok_bind, commit_of_fault_two hy hz h]

/-- Settles O16: every instruction begins with the resolution of its operands, in order, each by its kind. -/
theorem firstOperandFaultIsTaken : Obligations.FirstOperandFaultIsTaken := by
  intro i s e h
  cases i with
  | halt | ret | noop => nomatch h
  | push a | pop a | jmp a | call a | out a | inChar a => exact commit_of_fault_one rfl h
  | set a b | jt a b | jf a b | not a b | rmem a b | wmem a b => exact commit_of_fault_two rfl rfl h
  | eq a b c | gt a b c | add a b c | mult a b c | mod a b c | and a b c | or a b c =>
    exact commit_of_fault_three rfl rfl rfl h

/-! ### The operands that the loop fetches one at a time (R90, R111) -/

/-- Operands beyond the operand count are not looked at. -/
theorem firstOperandFault_take (s : State) (ks : List OperandKind) (os : List Operand) :
    firstOperandFault s ks (os.take ks.length) = firstOperandFault s ks os := by
  induction ks generalizing os with
  | nil => cases os <;> rfl
  | cons k ks ih =>
    cases os with
    | nil => rfl
    | cons o os =>
      rw [List.length_cons, List.take_succ_cons, firstOperandFault, firstOperandFault, ih]

/-- What the loop answers for operands of kinds `ks`, told from the words `ws` that are there from address n on, all
read ahead: the fault of the first that does not resolve, or else the words, or else the refusal of the next fetch. -/
def readAhead (s : State) (ks : List OperandKind) (n : Nat) (ws : List Word) : Attempt (List Word) :=
  match firstOperandFault s ks (ws.map Operand.ofWord) with
  | some e => .error e
  | none =>
    if ks.length ≤ ws.length then .ok (ws.take ks.length)
    else .error ⟨.addressOutOfRange, BitVec.ofNat 16 (n + ws.length)⟩

theorem readAhead_of_fault {s : State} {ks : List OperandKind} {n : Nat} {ws : List Word} {e : Raise}
    (h : firstOperandFault s ks (ws.map Operand.ofWord) = some e) : readAhead s ks n ws = .error e := by
  rw [readAhead, h]

theorem readAhead_of_long {s : State} {ks : List OperandKind} {n : Nat} {ws : List Word}
    (h : firstOperandFault s ks (ws.map Operand.ofWord) = none) (hlen : ks.length ≤ ws.length) :
    readAhead s ks n ws = .ok (ws.take ks.length) := by
  rw [readAhead, h]
  exact if_pos hlen

theorem readAhead_of_short {s : State} {ks : List OperandKind} {n : Nat} {ws : List Word}
    (hlen : ws.length < ks.length) :
    readAhead s ks n ws = .error ((firstOperandFault s ks (ws.map Operand.ofWord)).getD
      ⟨.addressOutOfRange, BitVec.ofNat 16 (n + ws.length)⟩) := by
  rw [readAhead]
  cases firstOperandFault s ks (ws.map Operand.ofWord) with
  | some e => rfl
  | none => exact if_neg (Nat.not_le_of_lt hlen)

/-- An operand that resolves goes in front of what the others give. -/
theorem readAhead_cons {s : State} {k : OperandKind} {ks : List OperandKind} {n : Nat} {w : Word} {ws : List Word}
    (h : operandFault s k (Operand.ofWord w) = none) :
    readAhead s (k :: ks) n (w :: ws) = readAhead s ks (n + 1) ws >>= fun rest => .ok (w :: rest) := by
  have hcons : firstOperandFault s (k :: ks) ((w :: ws).map Operand.ofWord) =
      firstOperandFault s ks (ws.map Operand.ofWord) := firstOperandFault_cons_none h
  cases hf : firstOperandFault s ks (ws.map Operand.ofWord) with
  | some e =>
    rw [readAhead_of_fault hf, readAhead_of_fault (hcons.trans hf), error_bind]
  | none =>
    rcases Nat.lt_or_ge ws.length ks.length with hlt | hge
    · have hnext : n + (w :: ws).length = n + 1 + ws.length := Nat.add_right_comm n ws.length 1
      rw [readAhead_of_short hlt, readAhead_of_short (ks := k :: ks) (ws := w :: ws) (Nat.succ_lt_succ hlt), hcons,
        error_bind, hnext]
    · rw [readAhead_of_long hf hge, readAhead_of_long (hcons.trans hf) (Nat.succ_le_succ hge), ok_bind]
      rfl

/-- The loop over the operands answers what the words read ahead tell (log 7). -/
theorem loopOperands_eq_readAhead (s : State) {ks : List OperandKind} {cursor count : Nat} (h : ks.length ≤ count) :
    loopOperands s ks cursor = readAhead s ks (cursor + 1) (s.mem.window (cursor + 1) count) := by
  induction ks generalizing cursor count with
  | nil => rw [loopOperands, readAhead, firstOperandFault] <;> simp
  | cons k ks ih =>
    obtain ⟨count, rfl⟩ : ∃ m, count = m + 1 := ⟨count - 1, by rw [List.length_cons] at h; omega⟩
    rw [loopOperands]
    cases ha : addressOf (cursor + 1) with
    | none =>
      have hfetch := fetchWord_eq_error (s := s).mpr ⟨addressOf_eq_none.mp ha, rfl⟩
      rw [hfetch, window_of_no_address ha, error_bind, readAhead_of_short (ks := k :: ks) (ws := []) (Nat.succ_pos _)]
      rfl
    | some a =>
      have hfetch : s.fetchWord (cursor + 1) = .ok (s.mem.readWord a) :=
        fetchWord_eq_ok.mpr ⟨a, addressOf_eq_some.mp ha, rfl⟩
      rw [hfetch, window_of_address ha, ok_bind]
      cases hf : operandFault s k (Operand.ofWord (s.mem.readWord a)) with
      | some e => rw [readAhead_of_fault (firstOperandFault_cons_some hf)]
      | none =>
        rw [readAhead_cons hf, ih (Nat.le_of_succ_le_succ h)]

/-! ### The loop's own fetch and advance (R111) -/

theorem loopFetch_of_pc_beyond {s : State} (h : 32768 ≤ s.pc.toNat) :
    loopFetch s = .error ⟨.addressOutOfRange, s.pc⟩ := by
  rw [loopFetch, fetchWord_eq_error.mpr ⟨h, rfl⟩, error_bind, BitVec.ofNat_toNat, BitVec.setWidth_eq]

theorem loopFetch_of_illegal {s : State} {a : Addr} (ha : a.val = s.pc.toNat) (hop : 22 ≤ (s.mem.readWord a).toNat) :
    loopFetch s = .error ⟨.illegalInstruction, s.mem.readWord a⟩ := by
  rw [loopFetch, ← ha, fetchWord_val, ok_bind, if_pos (Nat.lt_of_succ_le hop)]

/-- After a legal opcode word the loop fetches the operands of its kinds. -/
theorem loopFetch_of_legal {s : State} {a : Addr} (ha : a.val = s.pc.toNat) (hop : (s.mem.readWord a).toNat ≤ 21) :
    loopFetch s = readAhead s (operandKinds (s.mem.readWord a)) (s.pc.toNat + 1)
      (s.mem.window (s.pc.toNat + 1) 3) >>= fun rest => .ok (s.mem.readWord a :: rest) := by
  rw [loopFetch, ← loopOperands_eq_readAhead s (operandKinds_length_le _), ← ha, fetchWord_val, ok_bind,
    if_neg (Nat.not_lt_of_le hop)]

/-- The loop's advance writes the PC that a completed instruction has left, and leaves the other ends alone. -/
theorem loopAdvance_eq {i : Instr} {s t : State} (h : Ends i s t) : loopAdvance s i t = t := by
  have hsum : BitVec.ofNat 16 (s.pc.toNat + (1 + (operandKinds i.opcode).length)) =
      s.pc + BitVec.ofNat 16 i.length := by
    rw [operandKinds_length, BitVec.ofNat_add, BitVec.ofNat_toNat, BitVec.setWidth_eq, Instr.length]
  unfold loopAdvance
  split
  · rename_i hadvances
    obtain ⟨hrun, hwait, hsets⟩ := hadvances
    cases h with
    | complete _ hnext =>
      rcases hnext with ⟨-, rfl⟩ | ⟨hsets', -⟩
      · rw [hsum]
        rfl
      · simp [hsets] at hsets'
    | halt _ | fault _ => nomatch hrun
    | hold _ _ => nomatch hwait
  · rfl

theorem loopExecute_eq_exec (s : State) (i : Instr) : loopExecute s i = exec i s := by
  obtain ⟨t, ht⟩ := exec_answers i s
  rw [loopExecute, ht]
  exact congrArg Host.Outcome.next (loopAdvance_eq (exec_ends ht))

theorem loopStep_of_error {s : State} {e : Raise} (hrun : s.run = .running) (h : loopFetch s = .error e) :
    loopStep s = some (.next (s.takeFault e)) := by
  simp only [loopStep, hrun, h]

theorem loopStep_of_ok {s : State} {words rest : List Word} {i : Instr} (hrun : s.run = .running)
    (h : loopFetch s = .ok words) (hd : decode words = .ok (i, rest)) : loopStep s = some (exec i s) := by
  simp only [loopStep, hrun, h, hd, loopExecute_eq_exec]

theorem loopStep_terminal {s : State} (h : s.run ≠ .running) : loopStep s = some (.next s) := by
  unfold loopStep
  split
  · rename_i hrun
    exact absurd hrun h
  · rfl
  · rfl

/-- With a legal opcode word at the PC the loop and the step agree: when the words end too early, when an operand does
not resolve, and when all do. -/
theorem loopStep_of_legal {s : State} {a : Addr} (hrun : s.run = .running) (ha : a.val = s.pc.toNat)
    (hop : (s.mem.readWord a).toNat ≤ 21) : loopStep s = some (step s) := by
  have hwords := fetched_of_address ha
  have hfetch := loopFetch_of_legal ha hop
  set op := s.mem.readWord a
  set ws := s.mem.window (s.pc.toNat + 1) 3
  obtain ⟨-, hlong⟩ := readsOperands_decode hop ws
  rcases Nat.lt_or_ge ws.length (operandKinds op).length with hlt | hge
  · rw [readAhead_of_short hlt, error_bind] at hfetch
    rw [loopStep_of_error hrun hfetch, step_of_truncated hrun hwords hlt, List.length_cons, Nat.add_right_comm,
      Nat.add_assoc]
  · obtain ⟨i, hi, hos, hd⟩ := hlong hge
    have hstep : step s = exec i s := step_of_decode_ok hrun (by rw [hwords, hd])
    cases hf : firstOperandFault s (operandKinds op) (ws.map Operand.ofWord) with
    | some e =>
      rw [readAhead_of_fault hf, error_bind] at hfetch
      have hfirst : firstOperandFault s (operandKinds i.opcode) i.operands = some e := by
        rw [hi, hos, List.map_take, firstOperandFault_take, hf]
      rw [loopStep_of_error hrun hfetch, hstep, firstOperandFaultIsTaken i s e hfirst]
    | none =>
      rw [readAhead_of_long hf hge, ok_bind] at hfetch
      have hencode : encode i = op :: ws.take (operandKinds op).length := by rw [encode_of_operands_ofWord hos, hi]
      have hdecode : decode (encode i ++ []) = .ok (i, []) := decodeOfEncode i [] (wf_of_operands_ofWord hos)
      rw [List.append_nil, hencode] at hdecode
      rw [loopStep_of_ok hrun hfetch hdecode, hstep]

/-- Settles O10: by where the PC is and what the opcode word there is. -/
theorem stepIsTheLoopOfTheSpec : Obligations.StepIsTheLoopOfTheSpec := by
  intro s
  by_cases hrun : s.run = .running
  · rcases Nat.lt_or_ge s.pc.toNat 32768 with hlt | hge
    · obtain ⟨a, ha⟩ : ∃ a : Addr, a.val = s.pc.toNat := ⟨⟨_, hlt⟩, rfl⟩
      rcases Nat.lt_or_ge 21 (s.mem.readWord a).toNat with hill | hop
      · rw [loopStep_of_error hrun (loopFetch_of_illegal ha hill), (illegalOpcodeFaults s a _ hill).2 hrun ha rfl]
        rfl
      · exact loopStep_of_legal hrun ha hop
    · rw [loopStep_of_error hrun (loopFetch_of_pc_beyond hge), (opcodeFetch s).1 hrun hge]
      rfl
  · rw [loopStep_terminal hrun, step_terminal hrun]

end Sys2Proof.Machine
end

section
/-! SUPPORT. The host's view: the status register, and that no instruction reads the output trace or the fault record
(spec/10_state.md R36-R38, spec/60_exceptions.md R201, R216). -/

namespace Sys2Proof.Machine

/-! ### The fields of STATUS (R36) -/

theorem toNat_append_eq_add {m n : Nat} (x : BitVec m) (y : BitVec n) :
    (x ++ y).toNat = 2 ^ n * x.toNat + y.toNat := by
  rw [BitVec.toNat_append, Nat.shiftLeft_eq, Nat.mul_comm, Nat.two_pow_add_eq_or_of_lt y.isLt]

/-- STATUS as a number: FKIND from bit 4, WAIT_IN at bit 2, RUN from bit 0. -/
theorem status_toNat (s : State) :
    s.status.toNat = 16 * s.run.faultCode.toNat + 4 * s.waiting.toNat + s.run.code.toNat := by
  calc s.status.toNat
      = 2 ^ 2 * (0#8 ++ s.run.faultCode ++ 0#1 ++ BitVec.ofBool s.waiting).toNat + s.run.code.toNat :=
        toNat_append_eq_add _ _
    _ = 16 * s.run.faultCode.toNat + 4 * s.waiting.toNat + s.run.code.toNat := by
        rw [toNat_append_eq_add, toNat_append_eq_add, toNat_append_eq_add, BitVec.toNat_ofBool, BitVec.toNat_ofNat,
          BitVec.toNat_ofNat]
        omega

theorem status_run (s : State) : s.status.extractLsb' 0 2 = s.run.code := by
  have hrun := s.run.code.isLt
  apply BitVec.eq_of_toNat_eq
  rw [BitVec.extractLsb'_toNat, Nat.shiftRight_zero, status_toNat]
  omega

/-- A bit of STATUS, from its number. -/
theorem status_getLsbD (s : State) (i : Nat) : s.status.getLsbD i = decide (s.status.toNat / 2 ^ i % 2 = 1) := by
  rw [BitVec.getLsbD, Nat.testBit_eq_decide_div_mod_eq]

theorem status_waitIn (s : State) : s.status.getLsbD 2 = s.waiting := by
  have hrun := s.run.code.isLt
  rw [status_getLsbD, status_toNat]
  cases s.waiting with
  | true => exact decide_eq_true (by rw [Bool.toNat_true]; omega)
  | false => exact decide_eq_false (by rw [Bool.toNat_false]; omega)

theorem status_reserved_bit (s : State) : s.status.getLsbD 3 = false := by
  have hrun := s.run.code.isLt
  have hwait := s.waiting.toNat_lt
  rw [status_getLsbD, status_toNat]
  exact decide_eq_false (by omega)

theorem status_faultCode (s : State) : s.status.extractLsb' 4 4 = s.run.faultCode := by
  have hrun := s.run.code.isLt
  have hwait := s.waiting.toNat_lt
  have hkind := s.run.faultCode.isLt
  apply BitVec.eq_of_toNat_eq
  rw [BitVec.extractLsb'_toNat, Nat.shiftRight_eq_div_pow, status_toNat]
  omega

theorem status_reserved_byte (s : State) : s.status.extractLsb' 8 8 = 0 := by
  have hrun := s.run.code.isLt
  have hwait := s.waiting.toNat_lt
  have hkind := s.run.faultCode.isLt
  have hzero : (0 : BitVec 8).toNat = 0 := rfl
  apply BitVec.eq_of_toNat_eq
  rw [BitVec.extractLsb'_toNat, Nat.shiftRight_eq_div_pow, status_toNat, hzero]
  omega

/-- FKIND holds the fault's code. -/
theorem status_of_faulted {s : State} {k : FaultKind} (h : s.run = .faulted k) :
    s.status.extractLsb' 4 4 = k.code := by
  rw [status_faultCode, h, RunStatus.faultCode]

/-- Settles O54, one lemma for each field; the ten codes are those of the table. -/
theorem statusRegisterFields : Obligations.StatusRegisterFields := by
  intro s
  refine ⟨?_, ?_, status_reserved_bit s, status_of_faulted, status_of_faulted, status_of_faulted, status_of_faulted,
    status_of_faulted, status_of_faulted, status_of_faulted, status_of_faulted, status_of_faulted, status_of_faulted,
    fun hnot => ?_, status_reserved_byte s⟩
  · rw [status_run]
    cases s.run <;> rfl
  · rw [status_waitIn, State.waiting, Bool.and_eq_true, decide_eq_true_iff, and_comm]
  · rw [status_faultCode]
    cases hrun : s.run with
    | running | halted => rfl
    | faulted k => exact absurd hrun (hnot k)

/-! ### What a program can see (R38, R216) -/

/-- The state with another output trace and another fault record. -/
def State.withHostFields (s : State) (o : List Byte) (p q : Word) : State :=
  { s with output := o, faultPc := p, faultInfo := q }

/-- The state without the fields that only the host reads. -/
def State.view (s : State) : State := s.withHostFields [] 0 0

/-- Two computations raise the same, or give states that agree in what a program can see. -/
def SameView (r r' : Attempt State) : Prop := r.map State.view = r'.map State.view

/-- Two outcomes are next states that agree in what a program can see. -/
def SameNextView (x x' : Outcome) : Prop := ∃ t t', x = .next t ∧ x' = .next t' ∧ t.view = t'.view

/-- A sequence agrees when it goes on alike after the same first part. -/
theorem SameView.bind {α : Type} {x : Attempt α} {f g : α → Attempt State} (h : ∀ a, SameView (f a) (g a)) :
    SameView (x >>= f) (x >>= g) := by
  cases x with
  | ok a => exact h a
  | error e => rfl

section
variable (s : State) (o : List Byte) (p q : Word)

/-- Two computations that agree end in steps that agree; a fault that is taken is the same fault. -/
theorem SameView.commit {r r' : Attempt State} (h : SameView r r') :
    SameNextView (commit s r) (commit (s.withHostFields o p q) r') := by
  cases r with
  | ok t =>
    cases r' with
    | ok t' => exact ⟨t, t', rfl, rfl, Except.ok.inj h⟩
    | error e' => nomatch h
  | error e =>
    cases r' with
    | ok t' => nomatch h
    | error e' =>
      obtain rfl : e = e' := Except.error.inj h
      exact ⟨_, _, rfl, rfl, rfl⟩

/-- The depth check reads the stack and the configuration only. -/
theorem sameView_push (v next : Word) :
    SameView (s.push v >>= fun u => .ok (u.complete next))
      ((s.withHostFields o p q).push v >>= fun u => .ok (u.complete next)) := by
  have hfull : (s.withHostFields o p q).stackFull = s.stackFull := rfl
  rw [State.push, State.push, hfull]
  split
  · rfl
  · rfl

theorem sameView_threeOperand (f : Word → Word → Attempt Word) (a b c : Operand) :
    SameView (threeOperand f a b c s) (threeOperand f a b c (s.withHostFields o p q)) :=
  .bind fun _ => .bind fun _ => .bind fun _ => .bind fun _ => rfl

theorem sameView_conditionalJump (taken : Word → Bool) (a b : Operand) :
    SameView (conditionalJump taken a b s) (conditionalJump taken a b (s.withHostFields o p q)) := by
  refine .bind fun x => .bind fun t => ?_
  split
  · exact .bind fun _ => rfl
  · rfl

/-- An `in` reads the answers only. -/
theorem sameNextView_execIn (a : Operand) : SameNextView (execIn a s) (execIn a (s.withHostFields o p q)) := by
  obtain ⟨mem, regs, pc, stack, run, faultPc, faultInfo, waitIn, output, input, config⟩ := s
  refine SameView.commit _ o p q (.bind fun r => ?_)
  rcases input with _ | ⟨⟨c⟩ | _, rest⟩
  · rfl
  · rfl
  · rfl

/-- No instruction reads the output trace or the fault record. -/
theorem sameNextView_exec (i : Instr) : SameNextView (exec i s) (exec i (s.withHostFields o p q)) := by
  cases i with
  | halt | noop => exact ⟨_, _, rfl, rfl, rfl⟩
  | set a b | not a b | rmem a b | wmem a b => exact SameView.commit s o p q (.bind fun _ => .bind fun _ => rfl)
  | out a => exact SameView.commit s o p q (.bind fun _ => rfl)
  | pop a => exact SameView.commit s o p q (.bind fun _ => .bind fun _ => rfl)
  | push a => exact SameView.commit s o p q (.bind fun v => sameView_push s o p q v _)
  | call a => exact SameView.commit s o p q (.bind fun _ => .bind fun _ => sameView_push s o p q _ _)
  | ret => exact SameView.commit s o p q (.bind fun _ => .bind fun _ => rfl)
  | jmp a => exact SameView.commit s o p q (.bind fun _ => .bind fun _ => rfl)
  | jt a b | jf a b => exact SameView.commit s o p q (sameView_conditionalJump s o p q _ a b)
  | eq a b c | gt a b c | add a b c | mult a b c | mod a b c | and a b c | or a b c =>
    exact SameView.commit s o p q (sameView_threeOperand s o p q _ a b c)
  | inChar a => exact sameNextView_execIn s o p q a

/-- The fault of a fetch depends on Memory, the PC and the registers only. -/
theorem fetchFault_withHostFields (r : Reject) : fetchFault (s.withHostFields o p q) r = fetchFault s r := by
  cases r with
  | illegalInstruction op => rfl
  | truncated =>
    show truncatedFault (s.withHostFields o p q) s.fetched = truncatedFault s s.fetched
    cases s.fetched with
    | nil => rfl
    | cons op rest =>
      rw [truncatedFault, truncatedFault, firstOperandFault_congr (s := s.withHostFields o p q) (t := s) rfl]
      rfl

theorem sameNextView_step : SameNextView (step s) (step (s.withHostFields o p q)) := by
  by_cases hrun : s.run = .running
  · cases hd : decode s.fetched with
    | ok d =>
      rw [step_of_decode_ok hrun hd, step_of_decode_ok (s := s.withHostFields o p q) hrun hd]
      exact sameNextView_exec s o p q d.1
    | error r =>
      rw [step_of_decode_error hrun hd, step_of_decode_error (s := s.withHostFields o p q) hrun hd,
        fetchFault_withHostFields]
      exact ⟨_, _, rfl, rfl, rfl⟩
  · rw [step_terminal hrun, step_terminal (s := s.withHostFields o p q) hrun]
    exact ⟨_, _, rfl, rfl, rfl⟩

end

/-- Settles O55: the two steps agree in what a program can see, which is every field named. -/
theorem hostViewIsInvisible : Obligations.HostViewIsInvisible := by
  intro s t t' o p q h h'
  obtain ⟨u, u', hu, hu', hview⟩ := sameNextView_step s o p q
  obtain rfl : u = t := Host.Outcome.next.inj (hu.symm.trans h)
  obtain rfl : u' = t' := Host.Outcome.next.inj (hu'.symm.trans h')
  exact ⟨(congrArg State.mem hview).symm, (congrArg State.regs hview).symm, (congrArg State.pc hview).symm,
    (congrArg State.stack hview).symm, (congrArg State.run hview).symm, (congrArg State.waitIn hview).symm,
    (congrArg State.input hview).symm, (congrArg State.config hview).symm⟩

end Sys2Proof.Machine
end

section
/-! SUPPORT. Reset and LOAD (spec/10_state.md R40, spec/70_reset_and_hazards.md R240-R242). -/

namespace Sys2Proof.Machine

/-- In the empty Memory every byte is unlisted, so every word reads 0. -/
theorem readWord_nil (a : Addr) : Memory.readWord [] a = 0 := by
  rw [Memory.readWord, Memory.readByte_nil, Memory.readByte_nil]
  rfl

/-- Settles O56, field by field. -/
theorem resetValues : Obligations.ResetValues :=
  ⟨readWord_nil, fun i => by simp [State.reset], rfl, rfl, rfl, rfl, rfl, rfl, rfl, rfl⟩

/-- A byte of Memory is that byte of the image that was loaded, and 0 beyond it (R241). -/
theorem readByte_loaded (image : List Byte) (n : Nat) :
    (Memory.ofImage 0 image).readByte n = image.getD n Memory.unlisted := by
  simpa using Memory.readByte_ofImage (bs := image) (k := 0) (n := n)

/-- Settles O57: word a is put together from bytes 2a and 2a+1, both in an image of even length or both beyond it. -/
theorem loadFillsMemory : Obligations.LoadFillsMemory := by
  intro c image
  refine ⟨fun heven hlen => ⟨_, load_eq_some.mpr ⟨⟨heven, hlen⟩, rfl⟩, rfl, fun a => ?_⟩, fun hbad => ?_⟩
  · rw [Memory.readWord, wordOfBytes_toNat, readByte_loaded, readByte_loaded]
    split
    · rename_i h
      rw [List.getD_eq_getElem _ _ (by omega), List.getD_eq_getElem _ _ h]
    · rename_i h
      rw [List.getD_eq_default _ _ (by omega), List.getD_eq_default _ _ (by omega)]
      rfl
  · rw [load, if_neg (by omega)]

end Sys2Proof.Machine
end
